-- ==== Sys2Proof/Word.lean ====
section
/-!
DEFINITION. The machine's data unit (00_scope.md R9, R10). Every value of the machine is a mathematical integer, Lean's
`Int`; a Word is one between WORD_MIN and WORD_MAX. The range is a test on integers (`inWordRange`, Machine/Arith.lean),
because exact intermediate results leave it before they are checked (43_arithmetic.md R140). The machine is decimal: it
has no bits and no bytes (20_memory.md R51), so no bit vector stands anywhere in this model.
-/

namespace Sys2Proof

/-- `digit_i(w)` of a magnitude `w` (R10): decimal digit `i`, 0 the least significant. -/
def digit (i w : Nat) : Nat := w / 10 ^ i % 10

end Sys2Proof
end

