-- ==== Sys2Proof/Machine/Params.lean ====
section
/-!
DEFINITION. The fixed parameters of 00_scope.md R6 (and the construction values of R8), each a named constant with the
spec's value as R5 asks: no other file writes one of them as a numeral. They stand under Machine/ so that a later repair
may change a value: the spec calls its literals unaudited (DESIGN CHOICE of the spec, unsafe: log entry 4). The OPEN parameters are in Sys2Proof/Config.lean.
-/

namespace Sys2Proof.Config

/-- `WORD_MIN` (R6): the smallest Word. -/
def wordMin : Int := -9999

/-- `WORD_MAX` (R6): the largest Word. -/
def wordMax : Int := 9999

/-- `MEM_WORDS` (R6): the number of memory slots. -/
def memWords : Nat := 100

/-- `FILL_WORD` (R6): what every slot holds at construction. -/
def fillWord : Int := 7777

/-- `LOAD_TERMINATOR` (R6): ends the load stream, never stored. -/
def loadTerminator : Int := -99999

/-- `LOAD_CAPACITY` (R6): the most words the loader stores. -/
def loadCapacity : Nat := 100

/-- `OPC_DIVISOR` (R6): splits a word into operation code and operand. -/
def opcDivisor : Int := 100

/-- `NUM_INSTRUCTIONS` (R6): how many operation codes are defined. -/
def numInstructions : Nat := 12

/-- `ENTRY_IC` (R6): `ic` when execution starts. -/
def entryIc : Int := 0

/-- `ic` at construction (R41). DESIGN CHOICE of the spec (D3): log entry 2. -/
def icReset : Int := 0

/-- `ACC_RESET` (R8, R41). DESIGN CHOICE of the spec (D3), unsafe: log entry 2. -/
def accReset : Int := 0

/-- `IR_RESET` (R8, R41). DESIGN CHOICE of the spec (D3), unsafe: log entry 2. -/
def irReset : Int := 0

/-- `OPC_RESET` (R8, R41). DESIGN CHOICE of the spec (D3), unsafe: log entry 2. -/
def opcReset : Int := 0

/-- `OPD_RESET` (R8, R41). DESIGN CHOICE of the spec (D3), unsafe: log entry 2. -/
def opdReset : Int := 0

end Sys2Proof.Config
end

