-- ==== Sys2Proof/Machine/Arith.lean ====
section
/-!
DEFINITION. Range checks and the truncating division of 00_scope.md R9 to R11.
-/

namespace Sys2Proof

/-- `inWordRange(v)` (R9): `v` is a Word. -/
def inWordRange (v : Int) : Bool := decide (Config.wordMin ≤ v) && decide (v ≤ Config.wordMax)

/-- `tdiv` (R11): division truncated toward zero. -/
def tdiv (a b : Int) : Int := Int.tdiv a b

/-- `trem` (R11): the remainder that goes with `tdiv`; zero or of the sign of the dividend. -/
def trem (a b : Int) : Int := Int.tmod a b

/-- The operation-code field of a word (R72). -/
def opcField (w : Int) : Int := tdiv w Config.opcDivisor

/-- The operand field of a word (R72). -/
def opdField (w : Int) : Int := trem w Config.opcDivisor

end Sys2Proof
end

