-- ==== Sys2Proof/Syntax.lean ====
section
/-!
DEFINITION. The twelve instructions of spec/opcode_table.json (30_encoding.md R73), one constructor a row, and the closed
enumeration of operation codes that 40_engine_cycle.md R105 asks for.
-/

namespace Sys2Proof

/-- The twelve defined operation codes as names (R73); their numbers are `opcodeNumber` in Decode.lean. -/
inductive Opcode where
  | read | write | store | load | add | subtract | multiply | divide | branch | branchZero | branchNeg | halt
deriving DecidableEq, Repr

/-- An instruction: an operation and its operand field, used exactly as decoded (R77). The operand is a direct memory
address or target; HALT carries one too, which it ignores (R75). -/
inductive Instr where
  | read (opd : Int)
  | write (opd : Int)
  | store (opd : Int)
  | load (opd : Int)
  | add (opd : Int)
  | subtract (opd : Int)
  | multiply (opd : Int)
  | divide (opd : Int)
  | branch (opd : Int)
  | branchZero (opd : Int)
  | branchNeg (opd : Int)
  | halt (opd : Int)
deriving DecidableEq, Repr

/-- Every operation code, in the order of R73. -/
def Opcode.all : List Opcode :=
  [.read, .write, .store, .load, .add, .subtract, .multiply, .divide, .branch, .branchZero, .branchNeg, .halt]

/-- The instruction of an operation code and an operand. -/
def Opcode.withOperand (op : Opcode) (opd : Int) : Instr :=
  match op with
  | .read => .read opd
  | .write => .write opd
  | .store => .store opd
  | .load => .load opd
  | .add => .add opd
  | .subtract => .subtract opd
  | .multiply => .multiply opd
  | .divide => .divide opd
  | .branch => .branch opd
  | .branchZero => .branchZero opd
  | .branchNeg => .branchNeg opd
  | .halt => .halt opd

/-- The operation code of an instruction. -/
def Instr.opcode : Instr → Opcode
  | .read _ => .read
  | .write _ => .write
  | .store _ => .store
  | .load _ => .load
  | .add _ => .add
  | .subtract _ => .subtract
  | .multiply _ => .multiply
  | .divide _ => .divide
  | .branch _ => .branch
  | .branchZero _ => .branchZero
  | .branchNeg _ => .branchNeg
  | .halt _ => .halt

/-- The operand field of an instruction. -/
def Instr.operand : Instr → Int
  | .read opd => opd
  | .write opd => opd
  | .store opd => opd
  | .load opd => opd
  | .add opd => opd
  | .subtract opd => opd
  | .multiply opd => opd
  | .divide opd => opd
  | .branch opd => opd
  | .branchZero opd => opd
  | .branchNeg opd => opd
  | .halt opd => opd

end Sys2Proof
end

