-- ==== Sys2Proof/WellFormed.lean ====
section
/-!
DEFINITION. Which instruction terms an encoding can give: the operand is a two-digit field (30_encoding.md R71, R76).
-/

namespace Sys2Proof

/-- R76: when a defined instruction executes, its operand is 0 to 99. The field's bound is `OPC_DIVISOR`, since it is
what remains of a division by it. -/
def operandInField (opd : Int) : Bool := decide (0 ≤ opd) && decide (opd < Config.opcDivisor)

/-- The one check an instruction has: its operand fits its two-digit field. HALT's does too (R75: any `aa`). -/
def Instr.wellFormed (i : Instr) : Bool := operandInField i.operand

end Sys2Proof
end

