-- ==== Sys2Proof/Decode.lean ====
section
/-!
DEFINITION. The instruction_decoder (30_encoding.md R72 to R74, R78) and the encoder, both over one table of opcode
numbers. The words are decimal; a word's fields are its quotient and remainder by `OPC_DIVISOR`.
-/

namespace Sys2Proof

/-- `OPCODE_TABLE` (R73, R8): the number of each operation code, as named configuration (R5). DESIGN CHOICE of the spec
(D9), unsafe: log entry 3. -/
def opcodeNumber : Opcode → Int
  | .read => 11
  | .write => 12
  | .store => 21
  | .load => 22
  | .add => 31
  | .subtract => 32
  | .multiply => 33
  | .divide => 34
  | .branch => 41
  | .branchZero => 42
  | .branchNeg => 43
  | .halt => 44

/-- The operation code of a number, if it is one of the twelve (R105). -/
def opcodeOf (n : Int) : Option Opcode := Opcode.all.find? fun op => opcodeNumber op == n

/-- The thirteen outcomes of R105: one of the twelve instructions, or the invalid opcode, by name. -/
inductive Decoded where
  /-- The word is one of the twelve instructions. -/
  | instr (i : Instr)
  /-- The word's operation code is none of the twelve (R74). -/
  | invalidOpcode
deriving DecidableEq, Repr

/-- Decode (R72 to R74), total on every integer. -/
def decode (w : Int) : Decoded :=
  match opcodeOf (opcField w) with
  | some op => .instr (op.withOperand (opdField w))
  | none => .invalidOpcode

/-- The Word of an instruction (R78): `100 * op + a`. -/
def encode (i : Instr) : Int := Config.opcDivisor * opcodeNumber i.opcode + i.operand

/-- What the decoder reads from a word whose binary digits are `w`. A slot holds one indivisible integer (R51), so the
whole number `w` is the word, however many bits it was written with. DESIGN CHOICE: log entry 18. -/
def decodeTableWord (_nbits w : Nat) : Option Instr :=
  match decode (Int.ofNat w) with
  | .instr i => some i
  | .invalidOpcode => none

end Sys2Proof
end

