-- ==== Sys2Proof/Machine/Abend.lean ====
section
/-!
DEFINITION. The eight ABEND kinds (60_exceptions.md R201), the output events (10_state.md R38) and the loader's results.
-/

namespace Sys2Proof.Machine

/-- The ABEND kinds, in the order of R201. The first two are load results, the other six end a run. -/
inductive AbendKind where
  | invalidWord | programTooLarge | addressabilityError | illegalInput | overflow | underflow | divisionByZero
  | invalidOpcode
deriving DecidableEq, Repr

/-- An event on the OUT port (R38). -/
inductive Event where
  /-- READ's echo of the Word it stored. -/
  | echo (v : Int)
  /-- WRITE's Word. -/
  | write (v : Int)
  /-- HALT's termination message. -/
  | halted
  /-- An ABEND's diagnostic. -/
  | abend (k : AbendKind)
deriving DecidableEq, Repr

/-- Why a load failed (70_reset_and_hazards.md R235). -/
inductive LoadFailure where
  /-- A value outside the Word range. -/
  | invalidWord
  /-- A Word arriving when the memory is full. -/
  | programTooLarge
  /-- The stream ended before the terminator, under the policy `reject`. The spec gives this failure no ABEND kind. -/
  | endOfStream
deriving DecidableEq, Repr

/-- The codes of R201 (the spec's own, D7). -/
def AbendKind.code : AbendKind → Nat
  | .invalidWord => 1
  | .programTooLarge => 2
  | .addressabilityError => 3
  | .illegalInput => 4
  | .overflow => 5
  | .underflow => 6
  | .divisionByZero => 7
  | .invalidOpcode => 8

/-- R201: only codes 3 to 8 can appear in the run state; the two load kinds never do. -/
def AbendKind.endsRun : AbendKind → Bool
  | .invalidWord => false
  | .programTooLarge => false
  | .addressabilityError => true
  | .illegalInput => true
  | .overflow => true
  | .underflow => true
  | .divisionByZero => true
  | .invalidOpcode => true

end Sys2Proof.Machine
end

