-- ==== Sys2Proof/Machine/Memory.lean ====
section
/-!
DEFINITION. The 100-word memory as data (10_state.md R21, 20_memory.md R50 to R60): the listed slots, in rising order of
address, of which none holds what an unlisted slot reads as. DESIGN CHOICE (the list form), safe: log entry 1.
-/

namespace Sys2Proof.Machine

/-- One slot: its address and its Word. The unit is the whole Word (R51), so a cell holds an integer and no byte. -/
abbrev Cell := Nat × Int

/-- The memory: the slots that differ from the fill word. -/
abbrev Memory := List Cell

/-- R60: the Word a slot holds; `FILL_WORD` where nothing else was written. -/
def Memory.get : Memory → Nat → Int
  | [], _ => Config.fillWord
  | (b, v) :: m, a => if b = a then v else Memory.get m a

/-- The memory without a slot. -/
def Memory.drop (m : Memory) (a : Nat) : Memory := m.filter fun c => c.1 != a

/-- The memory with a slot listed, at its place in the order. -/
def Memory.put : Memory → Nat → Int → Memory
  | [], a, v => [(a, v)]
  | (b, w) :: m, a, v =>
    if a < b then (a, v) :: (b, w) :: m
    else if b = a then (a, v) :: m
    else (b, w) :: Memory.put m a v

/-- A write of one slot. Writing the fill word takes the slot off the list, so that equal memories are equal lists. -/
def Memory.set (m : Memory) (a : Nat) (v : Int) : Memory :=
  if v = Config.fillWord then Memory.drop m a else Memory.put m a v

/-- The canonical form: addresses strictly rising and inside the memory, no slot listed that holds the fill word. -/
def Memory.wf (m : Memory) : Bool :=
  decide (m.Pairwise fun c d => c.1 < d.1) && m.all fun c => decide (c.1 < Config.memWords) && c.2 != Config.fillWord

end Sys2Proof.Machine
end

