-- ==== Sys2Proof/Machine/State.lean ====
section
/-!
DEFINITION. Everything the spec gives the machine to hold (10_state.md R20, R32, R37, R38), the state at construction
(R41), and the reasons a step can have for giving no next state.
-/

namespace Sys2Proof.Machine

/-- The engine's run state (R30). -/
inductive RunState where
  | running
  | halted
  | abended (k : AbendKind)
deriving DecidableEq, Repr

/-- Where the instance stands in its lifecycle (70_reset_and_hazards.md R232). The spec's `state` exists once the run has
started (R41: "not started" before that). -/
inductive Phase where
  /-- Constructed; the loader is filling memory. -/
  | loading
  /-- `LoadOK` was returned; execution has not started. -/
  | loaded
  /-- `LoadFail` was returned; there is no run (R235). -/
  | loadFailed (r : LoadFailure)
  /-- The run has started; `st` is the spec's `state`. -/
  | run (st : RunState)
deriving DecidableEq, Repr

/-- The machine's state. -/
structure State where
  /-- `M[0..99]` (R21). -/
  mem : Memory
  /-- `acc`, the accumulator (R24). -/
  acc : Int
  /-- `ic`, the instruction counter (R25). -/
  ic : Int
  /-- `ir`, the instruction register (R26). -/
  ir : Int
  /-- `opc`, the operation code decoded from `ir` (R27). -/
  opc : Int
  /-- `opd`, the operand decoded from `ir` (R28). -/
  opd : Int
  /-- The lifecycle phase, with `state` (R30) inside it. -/
  phase : Phase
  /-- The loader's `count` (R234); after the load, the count that `LoadOK` returned. -/
  loadCount : Nat
  /-- The values the host has supplied on IN so far, in order (R37). -/
  stream : List Int
  /-- The host has ended the stream: behind `stream` comes `EOS` (R37). -/
  streamEnded : Bool
  /-- The position in the input stream (R32): how many values have been taken. -/
  inPos : Nat
  /-- The events emitted on OUT so far, oldest first (R38). -/
  out : List Event
deriving DecidableEq, Repr

/-- Why a step gives no next state although no instruction was refused. -/
inductive Fault where
  /-- `ModelFault(BadAddress)` (20_memory.md R55): an access outside the memory. Raised by the memory_access_controller;
  no program reaches it (D13). Safe. -/
  | badAddress
  /-- READ met the end of the input stream: the engine is stuck and has no step (41_io.md R123, D4). Raised by READ.
  Safe. -/
  | inputExhausted
  /-- The run is over, HALTED or ABENDED: the engine has no step (40_engine_cycle.md R100). Raised by the step. Safe. -/
  | runOver
  /-- The load failed, so there is no run (R235). Raised by the step. Safe. -/
  | noRun
deriving DecidableEq, Repr

/-- Why a step is refused. -/
inductive Refusal where
  /-- The instruction has no meaning in the model. No instruction answers so. Safe. -/
  | notModelled (mnemonic : String)
deriving DecidableEq, Repr

/-- The machine as constructed (R41, R230): the load has yet to run, and the host has supplied no input yet. The values
of `acc`, `ir`, `opc` and `opd` are the spec's decision D3 (log entry 2); the stream's are the model's (log entry 5). -/
def State.reset : State where
  mem := []
  acc := Config.accReset
  ic := Config.icReset
  ir := Config.irReset
  opc := Config.opcReset
  opd := Config.opdReset
  phase := .loading
  loadCount := 0
  stream := []
  streamEnded := false
  inPos := 0
  out := []

end Sys2Proof.Machine
end

