-- ==== Sys2Proof/Machine/Ops.lean ====
section
/-!
DEFINITION. The named operations over the state: registers, the memory_access_controller (20_memory.md R55), the IN and
OUT ports, taking an ABEND (60_exceptions.md R200) and completing an instruction (40_engine_cycle.md R107). There is no
return from an ABEND (R208), so no operation beside it.
-/

namespace Sys2Proof.Machine

/-- The result of a step or of an instruction. -/
abbrev Result := Host.Outcome State Fault Refusal

/-- `acc <- v`. -/
def State.setAcc (s : State) (v : Int) : State := { s with acc := v }

/-- `ic <- v`. -/
def State.setIc (s : State) (v : Int) : State := { s with ic := v }

/-- `state <- st`. -/
def State.setRun (s : State) (st : RunState) : State := { s with phase := .run st }

/-- `OutEmit(e)` (00_scope.md R12, R38): OUT only grows, at its end. -/
def State.emit (s : State) (e : Event) : State := { s with out := s.out ++ [e] }

/-- Replace the memory. -/
def State.setMem (s : State) (m : Memory) : State := { s with mem := m }

/-- R107: `ic <- ic + 1`, exact, with no wrap and no clamp. -/
def State.advance (s : State) : State := s.setIc (s.ic + 1)

/-- R200 and R12: `raise Abend(kind)` sets the run state, then emits the event, and changes nothing else.
That `ic`, `ir`, `opc` and `opd` stay is a DESIGN CHOICE of the spec (D8), unsafe for DUMP: log entry 12. -/
def State.raiseAbend (s : State) (k : AbendKind) : State := (s.setRun (.abended k)).emit (.abend k)

/-- An address the memory has (20_memory.md R50, R55). -/
def addrValid (a : Int) : Bool := decide (0 ≤ a) && decide (a < (Config.memWords : Int))

/-- `MemRead(a, 1)`; none where no such address exists. DESIGN CHOICE of the spec (D13), safe: log entry 17. -/
def State.memRead (s : State) (a : Int) : Option Int :=
  if addrValid a then some (s.mem.get a.toNat) else none

/-- `MemWrite(a, 1, v)`; none where no such address exists. -/
def State.memWrite (s : State) (a : Int) (v : Int) : Option State :=
  if addrValid a then some (s.setMem (s.mem.set a.toNat v)) else none

/-- What IN has for the next request (10_state.md R37). -/
inductive InValue where
  /-- The next integer. -/
  | value (v : Int)
  /-- `EOS`: the stream is exhausted. -/
  | endOfStream
  /-- The host has not yet supplied the next value: the request blocks. -/
  | pending
deriving DecidableEq, Repr

/-- What the next `InRead()` would find. -/
def State.inNext (s : State) : InValue :=
  match s.stream[s.inPos]? with
  | some v => .value v
  | none => if s.streamEnded then .endOfStream else .pending

/-- The stream position after `InRead()` took a value (R32). -/
def State.inTake (s : State) : State := { s with inPos := s.inPos + 1 }

/-- An instruction of the eight that R107 advances has completed. -/
def complete (s : State) : Result := .next s.advance

/-- An instruction raised an ABEND: no advance follows (R108). -/
def abend (s : State) (k : AbendKind) : Result := .next (s.raiseAbend k)

end Sys2Proof.Machine
end

