-- ==== Sys2Proof/Machine/Operands.lean ====
section
/-!
DEFINITION. The one operand form (30_encoding.md R77): a direct memory address. An access outside the memory is the
internal fault of 20_memory.md R55, which no decoded instruction reaches.
-/

namespace Sys2Proof.Machine

/-- Read the operand word, then go on with it. -/
def withOperand (s : State) (opd : Int) (go : Int → Result) : Result :=
  match s.memRead opd with
  | some v => go v
  | none => .fault .badAddress

/-- Write the operand word, then go on from the state written. -/
def storeOperand (s : State) (opd : Int) (v : Int) (go : State → Result) : Result :=
  match s.memWrite opd v with
  | some t => go t
  | none => .fault .badAddress

end Sys2Proof.Machine
end

