-- ==== Sys2Proof/Machine/Flags.lean ====
section
/-!
DEFINITION. The machine has no flags (10_state.md R29): the conditions are tested where they are used. Here are all of
them: overflow detect (43_arithmetic.md R141) and the two branch conditions.
-/

namespace Sys2Proof.Machine

/-- Overflow detect (R141): the ABEND an exact result raises, if it is no Word. -/
def overflowDetect (r : Int) : Option AbendKind :=
  if r < Config.wordMin then some .underflow
  else if r > Config.wordMax then some .overflow
  else none

/-- `RangeCommit(r)` (R141), with what follows it: the ABEND, or the commit and the advance. -/
def rangeCommit (s : State) (r : Int) : Result :=
  match overflowDetect r with
  | some k => abend s k
  | none => complete (s.setAcc r)

/-- The condition of BRANCHZERO (44_control.md R162). -/
def accIsZero (s : State) : Bool := s.acc == 0

/-- The condition of BRANCHNEG (R163). -/
def accIsNegative (s : State) : Bool := decide (s.acc < 0)

/-- A branch: to the operand where the condition holds, else to the next word. -/
def branchIf (s : State) (taken : Bool) (target : Int) : Result :=
  if taken then .next (s.setIc target) else .next (s.setIc (s.ic + 1))

end Sys2Proof.Machine
end

