-- ==== Sys2Proof/Machine/Arithmetic.lean ====
section
/-!
DEFINITION. The arithmetic instructions (43_arithmetic.md), on exact integers (R140).
-/

namespace Sys2Proof.Machine

/-- ADD (R142). -/
def execAdd (opd : Int) (s : State) : Result :=
  withOperand s opd fun v => rangeCommit s (s.acc + v)

/-- SUBTRACT (R143): the accumulator is the minuend. -/
def execSubtract (opd : Int) (s : State) : Result :=
  withOperand s opd fun v => rangeCommit s (s.acc - v)

/-- MULTIPLY (R144). -/
def execMultiply (opd : Int) (s : State) : Result :=
  withOperand s opd fun v => rangeCommit s (s.acc * v)

/-- DIVIDE (R145): truncating; no range check of the quotient (R146). -/
def execDivide (opd : Int) (s : State) : Result :=
  withOperand s opd fun d =>
    if d = 0 then abend s .divisionByZero else complete (s.setAcc (tdiv s.acc d))

end Sys2Proof.Machine
end

