-- ==== Sys2Proof/Machine/Control.lean ====
section
/-!
DEFINITION. The branches and HALT (44_control.md). None of them takes the advance of 40_engine_cycle.md R107.
-/

namespace Sys2Proof.Machine

/-- BRANCH (R161). -/
def execBranch (opd : Int) (s : State) : Result := .next (s.setIc opd)

/-- BRANCHZERO (R162). -/
def execBranchZero (opd : Int) (s : State) : Result := branchIf s (accIsZero s) opd

/-- BRANCHNEG (R163). -/
def execBranchNeg (opd : Int) (s : State) : Result := branchIf s (accIsNegative s) opd

/-- HALT (R164): the event, then the run state. Its operand is ignored (R75). -/
def execHalt (_opd : Int) (s : State) : Result := .next ((s.emit .halted).setRun .halted)

end Sys2Proof.Machine
end

