-- ==== Sys2Proof/Machine/Io.lean ====
section
/-!
DEFINITION. READ and WRITE (41_io.md).
-/

namespace Sys2Proof.Machine

/-- READ with the value that arrived (R121): the value is taken from the stream whether or not it is a Word; a Word is
written to memory, then echoed. DESIGN CHOICES of the spec (D20, D21), safe: log entry 13. -/
def readValue (s : State) (opd v : Int) : Result :=
  if inWordRange v then
    storeOperand s.inTake opd v fun t => complete (t.emit (.echo v))
  else abend s.inTake .illegalInput

/-- READ (R121, R123). Held while no value is there: nothing changes, and the step can be taken again (DESIGN CHOICE: log
entry 6). At the end of the stream the engine is stuck (DESIGN CHOICE of the spec, D4, safe: log entry 7). -/
def execRead (opd : Int) (s : State) : Result :=
  match s.inNext with
  | .value v => readValue s opd v
  | .pending => .next s
  | .endOfStream => .fault .inputExhausted

/-- WRITE (R122). -/
def execWrite (opd : Int) (s : State) : Result :=
  withOperand s opd fun v => complete (s.emit (.write v))

end Sys2Proof.Machine
end

