-- ==== Sys2Proof/Machine/LoadStore.lean ====
section
/-!
DEFINITION. LOAD and STORE (42_load_store.md).
-/

namespace Sys2Proof.Machine

/-- LOAD (R130). -/
def execLoad (opd : Int) (s : State) : Result :=
  withOperand s opd fun v => complete (s.setAcc v)

/-- STORE (R131). -/
def execStore (opd : Int) (s : State) : Result :=
  storeOperand s opd s.acc complete

end Sys2Proof.Machine
end

