-- ==== Sys2Proof/Machine/Dispatch.lean ====
section
/-!
DEFINITION. Dispatch (40_engine_cycle.md R105): one arm per instruction, each one direct call of its meaning.
-/

namespace Sys2Proof.Machine

def exec (i : Instr) (s : State) : Host.Outcome State Fault Refusal :=
  match i with
  | .read opd => Sys2Proof.Machine.execRead opd s
  | .write opd => Sys2Proof.Machine.execWrite opd s
  | .store opd => Sys2Proof.Machine.execStore opd s
  | .load opd => Sys2Proof.Machine.execLoad opd s
  | .add opd => Sys2Proof.Machine.execAdd opd s
  | .subtract opd => Sys2Proof.Machine.execSubtract opd s
  | .multiply opd => Sys2Proof.Machine.execMultiply opd s
  | .divide opd => Sys2Proof.Machine.execDivide opd s
  | .branch opd => Sys2Proof.Machine.execBranch opd s
  | .branchZero opd => Sys2Proof.Machine.execBranchZero opd s
  | .branchNeg opd => Sys2Proof.Machine.execBranchNeg opd s
  | .halt opd => Sys2Proof.Machine.execHalt opd s

end Sys2Proof.Machine
end

