-- ==== Sys2Proof/Machine/Engine.lean ====
section
/-!
DEFINITION. The fetch-decode-execute cycle (40_engine_cycle.md R102 to R109).
-/

namespace Sys2Proof.Machine

/-- The program_counter_validator's check (R102). -/
def State.pcValid (s : State) : Bool := decide (0 ≤ s.ic) && decide (s.ic < (Config.memWords : Int))

/-- Fetch and decode (R103, R104): the fetched word and its two fields. -/
def State.latch (s : State) (w : Int) : State := { s with ir := w, opc := opcField w, opd := opdField w }

/-- The step is not enabled (41_io.md R121, R32): a READ for which IN has no value yet. -/
def State.heldBy (s : State) (i : Instr) : Bool :=
  match i with
  | .read _ => s.inNext == .pending
  | .write _ => false
  | .store _ => false
  | .load _ => false
  | .add _ => false
  | .subtract _ => false
  | .multiply _ => false
  | .divide _ => false
  | .branch _ => false
  | .branchZero _ => false
  | .branchNeg _ => false
  | .halt _ => false

/-- What a fetched word does (R104 to R106). A held READ changes nothing, not even `ir`: a step is atomic (R101), and this
one is not enabled (DESIGN CHOICE: log entry 6). -/
def runWord (s : State) (w : Int) : Result :=
  match decode w with
  | .instr i => if s.heldBy i then .next s else exec i (s.latch w)
  | .invalidOpcode => abend (s.latch w) .invalidOpcode

/-- One step of the engine in `RUNNING` (R109). -/
def engineStep (s : State) : Result :=
  if s.pcValid then
    match s.memRead s.ic with
    | some w => runWord s w
    | none => .fault .badAddress
  else abend s .addressabilityError

/-- Place a word where the next fetch reads it: at `ic`, or at the entry address where `ic` is out of range. -/
def State.placeWord (s : State) (w : Int) : State :=
  let s := if s.pcValid then s else s.setIc Config.entryIc
  (s.setMem (s.mem.set s.ic.toNat w)).setRun .running

end Sys2Proof.Machine
end

