-- ==== Sys2Proof/Config.lean ====
section
/-!
DEFINITION. The parameters the spec leaves OPEN (00_scope.md R8): constants with no body, so that nothing can be proved
of their values and every statement holds for each. The fixed parameters are in Machine/Params.lean.
-/

namespace Sys2Proof

/-- The two values of `LOAD_EOF_POLICY` (92_eei_decisions.md D5). -/
inductive LoadEofPolicy where
  | accept | reject
deriving DecidableEq, Repr, Inhabited

/-- `LOAD_EOF_POLICY` (R8, R234): what the loader does when the stream ends before the terminator. Free value: log
entry 9. -/
opaque Config.loadEofPolicy : LoadEofPolicy

/-- The ABEND kind, if any, that OUT reports when the policy `reject` ends a load: R235 names none for that failure and
does not say whether a diagnostic is emitted. Free value: log entry 10. -/
opaque Config.loadEofReport : Option Machine.AbendKind

/-- `ABEND_TEXT(kind)` (R8): the reason text of a diagnostic line. Free value: log entry 16. -/
opaque Config.abendText : Machine.AbendKind → String

/-- `HALT_TEXT` (R8): the termination line. Free value: log entry 16. -/
opaque Config.haltText : String

end Sys2Proof
end

