-- ==== Sys2Proof/Machine/Loader.lean ====
section
/-!
DEFINITION. The program load and the start of execution (70_reset_and_hazards.md R232 to R236). The loader takes one
value of the stream a step, and the start is a step of its own (DESIGN CHOICE, safe for the launch state: log entry 8).
-/

namespace Sys2Proof.Machine

/-- `LoadOK(count)` (R235): the count stays in `loadCount`. -/
def State.loadOk (s : State) : State := { s with phase := .loaded }

/-- `LoadFail(r)` (R235): there will be no run. -/
def State.loadFail (s : State) (r : LoadFailure) : State := { s with phase := .loadFailed r }

/-- `count <- count + 1` (R234). -/
def State.countLoaded (s : State) : State := { s with loadCount := s.loadCount + 1 }

/-- R234: what the loader does when the stream ends before the terminator, under each value of `LOAD_EOF_POLICY`. -/
def State.loadAtEnd (s : State) (policy : LoadEofPolicy) (report : Option AbendKind) : State :=
  match policy with
  | .accept => s.loadOk
  | .reject =>
    match report with
    | some k => (s.loadFail .endOfStream).emit (.abend k)
    | none => s.loadFail .endOfStream

/-- R234: one value `v` taken from the stream by the loader: the terminator, then the range, then the capacity. A load
failure is reported like an ABEND (R206; DESIGN CHOICE of the spec, D16: log entry 11). -/
def loadValue (s : State) (v : Int) : Result :=
  if v = Config.loadTerminator then .next s.inTake.loadOk
  else if inWordRange v then
    if s.loadCount = Config.loadCapacity then
      .next ((s.inTake.loadFail .programTooLarge).emit (.abend .programTooLarge))
    else
      match s.inTake.memWrite s.loadCount v with
      | some t => .next t.countLoaded
      | none => .fault .badAddress
  else .next ((s.inTake.loadFail .invalidWord).emit (.abend .invalidWord))

/-- One step of the loader (R234), held while no value is there (R240). -/
def loadStep (s : State) : Result :=
  match s.inNext with
  | .value v => loadValue s v
  | .pending => .next s
  | .endOfStream => .next (s.loadAtEnd Config.loadEofPolicy Config.loadEofReport)

/-- Start of execution (R236): `RUNNING` with `ic` at the entry address; everything else stays as the load left it. -/
def State.start (s : State) : State := (s.setIc Config.entryIc).setRun .running

end Sys2Proof.Machine
end

