-- ==== Sys2Proof/Machine/Step.lean ====
section
/-!
DEFINITION. One step of the machine: of the loader, the start of execution, or of the engine (40_engine_cycle.md R100,
70_reset_and_hazards.md R232).
-/

namespace Sys2Proof.Machine

/-- One step. The engine steps only in `RUNNING` (R100); a failed load has no run (R235). Where
there is no step the answer is a fault: DESIGN CHOICE, safe: log entry 22. -/
def step (s : State) : Host.Outcome State Fault Refusal :=
  match s.phase with
  | .loading => loadStep s
  | .loaded => .next s.start
  | .loadFailed _ => .fault .noRun
  | .run .running => engineStep s
  | .run .halted => .fault .runOver
  | .run (.abended _) => .fault .runOver

/-- The word `w` stored where the next step fetches, and the engine `RUNNING`. A word is one indivisible integer, so its
number of binary digits plays no part (log entry 18). -/
def State.withFetchWord (s : State) (_nbits w : Nat) : State := s.placeWord (Int.ofNat w)

end Sys2Proof.Machine
end

