-- ==== Sys2Proof/Machine/Render.lean ====
section
/-!
DEFINITION. The host's rendering of events as text (41_io.md R124). No step reads it. The texts the spec leaves open are
constants with no body (Sys2Proof/Config.lean).
-/

namespace Sys2Proof.Machine

/-- R124: an explicit sign and four digits, five characters in all; zero has the sign `+`. -/
def renderWord (v : Int) : List Char :=
  (if v < 0 then '-' else '+') ::
    [3, 2, 1, 0].map fun i => Nat.digitChar (digit i v.natAbs)

/-- R124, R204: the line of an event. READ's prefix belongs to the host (90_conflicts.md C8) and is left out. -/
def renderEvent : Event → List Char
  | .echo v => renderWord v
  | .write v => renderWord v
  | .halted => Config.haltText.toList
  | .abend k => "*** ABEND: ".toList ++ (Config.abendText k).toList ++ ". ***".toList

end Sys2Proof.Machine
end

