-- ==== Sys2Proof/Machine/Ports.lean ====
section
/-!
DEFINITION. What the host may do and see (60_exceptions.md R216): supply input, read STATUS (10_state.md R39), read DUMP
(R40). None of them is a step of the machine.
-/

namespace Sys2Proof.Machine

/-- The host supplies further values on IN, behind those supplied so far (R37). Nothing follows the end of a stream.
DESIGN CHOICE (the form in which they wait): log entry 5. -/
def State.supply (s : State) (vs : List Int) : State :=
  if s.streamEnded then s else { s with stream := s.stream ++ vs }

/-- The host ends the input stream: `EOS` follows the values supplied so far (R37). -/
def State.endInput (s : State) : State := { s with streamEnded := true }

/-- The run-state codes of R201 (the spec's own, D7). -/
def RunState.code : RunState → Nat
  | .running => 0
  | .halted => 1
  | .abended _ => 2

/-- The kind code beside the run-state code (R201): 0 means no ABEND. -/
def RunState.kindCode : RunState → Nat
  | .running => 0
  | .halted => 0
  | .abended k => k.code

/-- The STATUS port (R39): the two codes, once there is a run. Before the run the spec gives no code. DESIGN
CHOICE of the spec (D7), safe: log entry 15. -/
def State.status (s : State) : Option (Nat × Nat) :=
  match s.phase with
  | .loading => none
  | .loaded => none
  | .loadFailed _ => none
  | .run st => some (st.code, st.kindCode)

/-- What DUMP shows (R40). -/
structure DumpView where
  acc : Int
  ir : Int
  ic : Int
  opc : Int
  opd : Int
  /-- `M[0..99]`, in order. -/
  mem : List Int
deriving DecidableEq, Repr

/-- At rest (R40, R214): after the load, or after the run has ended. -/
def State.atRest (s : State) : Bool :=
  match s.phase with
  | .loading => false
  | .loaded => true
  | .loadFailed _ => true
  | .run .running => false
  | .run .halted => true
  | .run (.abended _) => true

/-- The memory as DUMP lists it: the Word of every address, from 0 up. -/
def Memory.list (m : Memory) : List Int := (List.range Config.memWords).map m.get

/-- The DUMP port (R40): a read-only view, given only at rest. DESIGN CHOICE of the spec (D14), safe: log entry 14. -/
def State.dump (s : State) : Option DumpView :=
  if s.atRest then
    some { acc := s.acc, ir := s.ir, ic := s.ic, opc := s.opc, opd := s.opd, mem := s.mem.list }
  else none

end Sys2Proof.Machine
end

