-- ==== Sys2Proof/Safety.lean ====
section
/-!
DEFINITION. What a sound state is, in the terms the statements use.
-/

namespace Sys2Proof.Machine

/-- The Word range invariant (10_state.md R22): every slot, the accumulator and the instruction register hold Words. -/
def State.holdsWords (s : State) : Prop :=
  (∀ c ∈ s.mem, inWordRange c.2 = true) ∧ inWordRange s.acc = true ∧ inWordRange s.ir = true

/-- R7, R25: `ic` is 0 to 100. -/
def State.icInRange (s : State) : Prop := 0 ≤ s.ic ∧ s.ic ≤ (Config.memWords : Int)

/-- R27, R28: `opc` and `opd` are the fields of `ir`. -/
def State.fieldsMatch (s : State) : Prop := s.opc = opcField s.ir ∧ s.opd = opdField s.ir

/-- R30, R201: the kinds that end a run are the six of the run. -/
def State.phaseLegal (s : State) : Bool :=
  match s.phase with
  | .run (.abended k) => k.endsRun
  | .run .running => true
  | .run .halted => true
  | .loading => true
  | .loaded => true
  | .loadFailed _ => true

/-- The stream position and the loader's count stay within their bounds (R32, R234). -/
def State.countsBounded (s : State) : Prop :=
  s.inPos ≤ s.stream.length ∧ s.loadCount ≤ Config.loadCapacity

/-- The machine's invariant: what every step keeps, and what holds at construction. -/
structure State.Inv (s : State) : Prop where
  memWf : s.mem.wf = true
  words : s.holdsWords
  icRange : s.icInRange
  fields : s.fieldsMatch
  phase : s.phaseLegal = true
  counts : s.countsBounded

/-- An event that only the end of a run or of a load emits. -/
def Event.isFinal : Event → Bool
  | .echo _ => false
  | .write _ => false
  | .halted => true
  | .abend _ => true

/-- Until the end no final event is on OUT; an ended run has exactly one, the last, and it names the end (R38, R204). A
failed load's report may be open (log entry 10) and is not spoken of. -/
def State.outMatchesPhase (s : State) : Prop :=
  match s.phase with
  | .loading => s.out = []
  | .loaded => s.out = []
  | .loadFailed _ => True
  | .run .running => ∀ e ∈ s.out, e.isFinal = false
  | .run .halted => ∃ es, s.out = es ++ [.halted] ∧ ∀ e ∈ es, e.isFinal = false
  | .run (.abended k) => ∃ es, s.out = es ++ [.abend k] ∧ ∀ e ∈ es, e.isFinal = false

/-- The registers as constructed, and no slot from the loader's count on differing from the fill word. -/
def State.fresh (s : State) : Prop :=
  s.acc = Config.accReset ∧ s.ic = Config.icReset ∧ s.ir = Config.irReset ∧ s.opc = Config.opcReset ∧
    s.opd = Config.opdReset ∧ ∀ a : Nat, s.loadCount ≤ a → s.mem.get a = Config.fillWord

/-- Until execution starts the registers hold their construction values, and the slots the loader has not reached hold the
fill word (10_state.md R41, 70_reset_and_hazards.md R236, R241). -/
def State.unstartedIsFresh (s : State) : Prop :=
  match s.phase with
  | .run _ => True
  | .loading => s.fresh
  | .loaded => s.fresh
  | .loadFailed _ => s.fresh

end Sys2Proof.Machine
end

