-- ==== Sys2Proof/Certificates/Slice0/Obligations.lean ====
section
/-!
DEFINITION. The statements for the provers, in the order: encoding, the step, the twelve instructions, the whole machine,
invariants, the load, construction and ports. Numbers are written out as the spec writes them, so that a wrong parameter
shows. Where a docstring says 'the spec's own decision D<n>' the clause rests on spec/92_eei_decisions.md and the log
entry it names.
-/

open Sys2Proof Sys2Proof.Machine

/-! ### Encoding -/

/-- 30_encoding.md R78: decoding the encoding of a well-formed instruction gives it back, with every operand. -/
def Obligations.DecodeOfEncodeIsTheInstruction : Prop :=
  ∀ i : Instr, i.wellFormed = true → decode (encode i) = .instr i

/-- R76, R78: a word that decodes to an instruction decodes to a well-formed one and is its encoding. The numbers of the
opcode table are the spec's own decision D9 (log entry 3). -/
def Obligations.EncodeOfDecodeIsTheWord : Prop :=
  ∀ (w : Int) (i : Instr), decode w = .instr i → i.wellFormed = true ∧ encode i = w

/-- R74: the invalid Words are the listed ones, and no other. -/
def Obligations.InvalidWordsAreTheListedOnes : Prop :=
  ∀ w : Int, -9999 ≤ w → w ≤ 9999 →
    (decode w = .invalidOpcode ↔
      w < 0 ∨ (0 ≤ w ∧ w ≤ 1099) ∨ (1300 ≤ w ∧ w ≤ 2099) ∨ (2300 ≤ w ∧ w ≤ 3099) ∨ (3500 ≤ w ∧ w ≤ 4099) ∨
        4500 ≤ w)

/-- Words written out from R73, one for each instruction, and four that are none. -/
def Obligations.SampleWordsDecode : Prop :=
  decode 1109 = .instr (.read 9) ∧ decode 1299 = .instr (.write 99) ∧ decode 2100 = .instr (.store 0) ∧
    decode 2299 = .instr (.load 99) ∧ decode 3110 = .instr (.add 10) ∧ decode 3211 = .instr (.subtract 11) ∧
    decode 3303 = .instr (.multiply 3) ∧ decode 3499 = .instr (.divide 99) ∧ decode 4100 = .instr (.branch 0) ∧
    decode 4207 = .instr (.branchZero 7) ∧ decode 4300 = .instr (.branchNeg 0) ∧ decode 4457 = .instr (.halt 57) ∧
    decode 0 = .invalidOpcode ∧ decode 7777 = .invalidOpcode ∧ decode 1099 = .invalidOpcode ∧
    decode (-1109) = .invalidOpcode

/-! ### The step -/

/-- 40_engine_cycle.md R109: in `RUNNING`, the word at `ic` decoding to `i`, the step is `exec i` from the state in which
the fetch has written `ir`, `opc` and `opd`. A READ that waits for its value is the one exception
(`Obligations.WaitingReadChangesNothing`). -/
def Obligations.StepRunsTheDecodedInstruction : Prop :=
  ∀ (s : State) (w : Int) (i : Instr), s.phase = .run .running → s.memRead s.ic = some w → decode w = .instr i →
    s.heldBy i = false →
    step s = exec i { s with ir := w, opc := Int.tdiv w 100, opd := Int.tmod w 100 }

/-- R103, R104: every step that fetched leaves the word in `ir` and its truncated fields in `opc` and `opd`, whatever the
word is, a negative one too. (A READ that waits has no step.) -/
def Obligations.EveryFetchedWordIsLatched : Prop :=
  ∀ (s t : State) (w : Int), s.phase = .run .running → s.memRead s.ic = some w →
    (∀ a, decode w = .instr (.read a) → s.inNext ≠ .pending) → step s = .next t →
    t.ir = w ∧ t.opc = Int.tdiv w 100 ∧ t.opd = Int.tmod w 100

/-- R102: outside 0 to 99 nothing is fetched, and the run ends with AddressabilityError; all else is as it was. (That the
registers stay so is the spec's own decision D8, log entry 12.) -/
def Obligations.FailedPcCheckAbends : Prop :=
  ∀ s : State, s.phase = .run .running → (s.ic < 0 ∨ 99 < s.ic) →
    step s = .next { s with
      phase := .run (.abended .addressabilityError), out := s.out ++ [.abend .addressabilityError] }

/-- R106: a word that is no instruction ends the run with InvalidOpcode; the word stays in `ir`, `ic` stays at it. (The
registers are the spec's own decision D8, log entry 12.) -/
def Obligations.InvalidWordAbends : Prop :=
  ∀ (s : State) (w : Int), s.phase = .run .running → s.memRead s.ic = some w → decode w = .invalidOpcode →
    step s = .next { s with
      ir := w, opc := Int.tdiv w 100, opd := Int.tmod w 100,
      phase := .run (.abended .invalidOpcode), out := s.out ++ [.abend .invalidOpcode] }

/-- R100: in `HALTED` and in `ABENDED(kind)` there is no step. -/
def Obligations.AnEndedRunHasNoStep : Prop :=
  ∀ s : State, (s.phase = .run .halted ∨ ∃ k, s.phase = .run (.abended k)) → ∀ t, step s ≠ .next t

/-- 41_io.md R121, 60_exceptions.md R215: while a READ waits for its value nothing changes. That the model answers such a
wait with the unchanged state is its own choice (log entry 6). -/
def Obligations.WaitingReadChangesNothing : Prop :=
  ∀ (s : State) (w a : Int), s.phase = .run .running → s.memRead s.ic = some w → decode w = .instr (.read a) →
    s.inNext = .pending → step s = .next s

/-- R215: the arrival of a value wakes the READ that waited, which then completes. -/
def Obligations.AnArrivingValueWakesTheRead : Prop :=
  ∀ (s : State) (w a v : Int), s.phase = .run .running → s.memRead s.ic = some w → decode w = .instr (.read a) →
    s.inNext = .pending → s.inPos ≤ s.stream.length → -9999 ≤ v → v ≤ 9999 →
    ∃ t, step (s.supply [v]) = .next t ∧ t.memRead a = some v ∧ t.out = s.out ++ [.echo v] ∧ t.ic = s.ic + 1 ∧
      t.inPos = s.inPos + 1

/-- R123: a READ at the end of the stream has no step. (The spec's own decision D4; the fault's name is log entry 7.) -/
def Obligations.ReadAtEndOfStreamIsStuck : Prop :=
  ∀ (s : State) (w a : Int), s.phase = .run .running → s.memRead s.ic = some w → decode w = .instr (.read a) →
    s.inNext = .endOfStream → step s = .fault .inputExhausted

/-! ### The instructions -/

/-- R121: READ of a Word: stored at the operand address, echoed, taken from the stream, `ic` advanced; every other slot and
register is as before. -/
def Obligations.ReadStoresAndEchoesTheNextWord : Prop :=
  ∀ (s : State) (a v : Int), 0 ≤ a → a ≤ 99 → s.stream[s.inPos]? = some v → -9999 ≤ v → v ≤ 9999 →
    decode (1100 + a) = .instr (.read a) ∧
    ∃ t, exec (.read a) s = .next t ∧ (∀ b, t.memRead b = if b = a then some v else s.memRead b) ∧
      t = { s with mem := t.mem, out := s.out ++ [.echo v], inPos := s.inPos + 1, ic := s.ic + 1 }

/-- R121: READ of a value that is no Word raises IllegalInput: no slot is written, nothing echoed, `ic` not advanced. That
`ic` is not advanced is the spec's own decision D8 (log entry 12), that the value is consumed its own decision D20 (log
entry 13). -/
def Obligations.ReadOfANonWordAbends : Prop :=
  ∀ (s : State) (a v : Int), s.stream[s.inPos]? = some v → (v < -9999 ∨ 9999 < v) →
    exec (.read a) s = .next { s with
      inPos := s.inPos + 1, phase := .run (.abended .illegalInput), out := s.out ++ [.abend .illegalInput] }

/-- R122: WRITE emits the operand's Word and advances; nothing else changes. -/
def Obligations.WriteEmitsTheOperandWord : Prop :=
  ∀ (s : State) (a : Int), 0 ≤ a → a ≤ 99 →
    decode (1200 + a) = .instr (.write a) ∧
    ∃ v, s.memRead a = some v ∧ exec (.write a) s = .next { s with out := s.out ++ [.write v], ic := s.ic + 1 }

/-- 42_load_store.md R130: LOAD copies the operand's Word into `acc` and advances; nothing else changes. -/
def Obligations.LoadCopiesTheOperandWord : Prop :=
  ∀ (s : State) (a : Int), 0 ≤ a → a ≤ 99 →
    decode (2200 + a) = .instr (.load a) ∧
    ∃ v, s.memRead a = some v ∧ exec (.load a) s = .next { s with acc := v, ic := s.ic + 1 }

/-- R131: STORE copies `acc` to the operand's slot and advances; every other slot and register is as before. -/
def Obligations.StoreCopiesTheAccumulator : Prop :=
  ∀ (s : State) (a : Int), 0 ≤ a → a ≤ 99 →
    decode (2100 + a) = .instr (.store a) ∧
    ∃ t, exec (.store a) s = .next t ∧ (∀ b, t.memRead b = if b = a then some s.acc else s.memRead b) ∧
      t = { s with mem := t.mem, ic := s.ic + 1 }

/-- 43_arithmetic.md R142: ADD commits the exact sum where it is a Word, and otherwise raises Underflow or Overflow with
everything else unchanged. (That `ic` is not advanced after the ABEND is the spec's own decision D8, log entry 12.) -/
def Obligations.AddCommitsTheExactSumOrAbends : Prop :=
  ∀ (s : State) (a : Int), 0 ≤ a → a ≤ 99 →
    decode (3100 + a) = .instr (.add a) ∧
    ∃ v, s.memRead a = some v ∧
      (-9999 ≤ s.acc + v → s.acc + v ≤ 9999 →
        exec (.add a) s = .next { s with acc := s.acc + v, ic := s.ic + 1 }) ∧
      (s.acc + v < -9999 →
        exec (.add a) s = .next { s with
          phase := .run (.abended .underflow), out := s.out ++ [.abend .underflow] }) ∧
      (9999 < s.acc + v →
        exec (.add a) s = .next { s with phase := .run (.abended .overflow), out := s.out ++ [.abend .overflow] })

/-- R143: SUBTRACT, the accumulator the minuend, by the same rule. (That `ic` is not advanced after the ABEND is the spec's
own decision D8, log entry 12.) -/
def Obligations.SubtractCommitsTheExactDifferenceOrAbends : Prop :=
  ∀ (s : State) (a : Int), 0 ≤ a → a ≤ 99 →
    decode (3200 + a) = .instr (.subtract a) ∧
    ∃ v, s.memRead a = some v ∧
      (-9999 ≤ s.acc - v → s.acc - v ≤ 9999 →
        exec (.subtract a) s = .next { s with acc := s.acc - v, ic := s.ic + 1 }) ∧
      (s.acc - v < -9999 →
        exec (.subtract a) s = .next { s with
          phase := .run (.abended .underflow), out := s.out ++ [.abend .underflow] }) ∧
      (9999 < s.acc - v →
        exec (.subtract a) s = .next { s with
          phase := .run (.abended .overflow), out := s.out ++ [.abend .overflow] })

/-- R144: MULTIPLY by the same rule, on the exact product. (That `ic` is not advanced after the ABEND is the spec's own
decision D8, log entry 12.) -/
def Obligations.MultiplyCommitsTheExactProductOrAbends : Prop :=
  ∀ (s : State) (a : Int), 0 ≤ a → a ≤ 99 →
    decode (3300 + a) = .instr (.multiply a) ∧
    ∃ v, s.memRead a = some v ∧
      (-9999 ≤ s.acc * v → s.acc * v ≤ 9999 →
        exec (.multiply a) s = .next { s with acc := s.acc * v, ic := s.ic + 1 }) ∧
      (s.acc * v < -9999 →
        exec (.multiply a) s = .next { s with
          phase := .run (.abended .underflow), out := s.out ++ [.abend .underflow] }) ∧
      (9999 < s.acc * v →
        exec (.multiply a) s = .next { s with
          phase := .run (.abended .overflow), out := s.out ++ [.abend .overflow] })

/-- R145: DIVIDE commits the quotient truncated toward zero, with R11's formula, unchecked; a zero divisor raises
DivisionByZero with everything else unchanged. (That `ic` is not advanced after the ABEND is the spec's own decision D8,
log entry 12.) -/
def Obligations.DivideCommitsTheTruncatedQuotientOrAbends : Prop :=
  ∀ (s : State) (a : Int), 0 ≤ a → a ≤ 99 →
    decode (3400 + a) = .instr (.divide a) ∧
    ∃ d, s.memRead a = some d ∧
      (d ≠ 0 → exec (.divide a) s = .next { s with
        acc := s.acc.sign * d.sign * ((s.acc.natAbs / d.natAbs : Nat) : Int), ic := s.ic + 1 }) ∧
      (d = 0 → exec (.divide a) s = .next { s with
        phase := .run (.abended .divisionByZero), out := s.out ++ [.abend .divisionByZero] })

/-- 44_control.md R161: BRANCH writes the operand to `ic` and nothing else. -/
def Obligations.BranchJumps : Prop :=
  ∀ (s : State) (a : Int), 0 ≤ a → a ≤ 99 →
    decode (4100 + a) = .instr (.branch a) ∧ exec (.branch a) s = .next { s with ic := a }

/-- R162: BRANCHZERO jumps where `acc` is zero, else goes to the next word; it writes nothing but `ic`. -/
def Obligations.BranchZeroJumpsIffZero : Prop :=
  ∀ (s : State) (a : Int), 0 ≤ a → a ≤ 99 →
    decode (4200 + a) = .instr (.branchZero a) ∧
    (s.acc = 0 → exec (.branchZero a) s = .next { s with ic := a }) ∧
    (s.acc ≠ 0 → exec (.branchZero a) s = .next { s with ic := s.ic + 1 })

/-- R163: BRANCHNEG jumps where `acc` is negative, else goes to the next word; it writes nothing but `ic`. -/
def Obligations.BranchNegJumpsIffNegative : Prop :=
  ∀ (s : State) (a : Int), 0 ≤ a → a ≤ 99 →
    decode (4300 + a) = .instr (.branchNeg a) ∧
    (s.acc < 0 → exec (.branchNeg a) s = .next { s with ic := a }) ∧
    (0 ≤ s.acc → exec (.branchNeg a) s = .next { s with ic := s.ic + 1 })

/-- R164: HALT, with any operand, emits Halted and ends the run; `ic` and all else keep their values. -/
def Obligations.HaltEndsTheRun : Prop :=
  ∀ (s : State) (a : Int), 0 ≤ a → a ≤ 99 →
    decode (4400 + a) = .instr (.halt a) ∧
    exec (.halt a) s = .next { s with phase := .run .halted, out := s.out ++ [.halted] }

/-! ### The whole machine -/

/-- R107: where `ic` goes after each instruction that did not abend: plus 1 for the eight, as they say for the branches,
nowhere for HALT. (A READ that waits has not executed.) -/
def Obligations.PcAfterEachInstruction : Prop :=
  ∀ (s t : State) (w : Int) (i : Instr), s.phase = .run .running → s.memRead s.ic = some w → decode w = .instr i →
    s.heldBy i = false → step s = .next t → (∀ k, t.phase ≠ .run (.abended k)) →
    t.ic =
      match i with
      | .read _ => s.ic + 1
      | .write _ => s.ic + 1
      | .store _ => s.ic + 1
      | .load _ => s.ic + 1
      | .add _ => s.ic + 1
      | .subtract _ => s.ic + 1
      | .multiply _ => s.ic + 1
      | .divide _ => s.ic + 1
      | .branch a => a
      | .branchZero a => if s.acc = 0 then a else s.ic + 1
      | .branchNeg a => if s.acc < 0 then a else s.ic + 1
      | .halt _ => s.ic

/-- R202, R203: ABENDs are precise. Whatever step of the engine ends in an ABEND writes the run state and the event, the
fetch's registers where it fetched, and the stream position for IllegalInput: nothing else. (The registers are the spec's
own decision D8, the position D20: log entries 12 and 13.) -/
def Obligations.AbendsArePrecise : Prop :=
  ∀ (s t : State) (k : AbendKind), s.phase = .run .running → step s = .next t → t.phase = .run (.abended k) →
    t = { s with
      phase := .run (.abended k), out := s.out ++ [.abend k], ir := t.ir, opc := t.opc, opd := t.opd,
      inPos := if k = .illegalInput then s.inPos + 1 else s.inPos } ∧
    (k = .addressabilityError → t.ir = s.ir ∧ t.opc = s.opc ∧ t.opd = s.opd) ∧
    (k ≠ .addressabilityError →
      s.memRead s.ic = some t.ir ∧ t.opc = Int.tdiv t.ir 100 ∧ t.opd = Int.tmod t.ir 100)

/-- R201, R205: an ABEND of the run has the cause its kind names, found at the check R205 puts it at. -/
def Obligations.EveryAbendHasItsCause : Prop :=
  ∀ (s t : State) (k : AbendKind), s.phase = .run .running → step s = .next t → t.phase = .run (.abended k) →
    (k = .addressabilityError ∧ (s.ic < 0 ∨ 99 < s.ic)) ∨
    ∃ w, s.memRead s.ic = some w ∧
      ((k = .invalidOpcode ∧ decode w = .invalidOpcode) ∨
       (∃ a v, k = .illegalInput ∧ decode w = .instr (.read a) ∧ s.stream[s.inPos]? = some v ∧
          (v < -9999 ∨ 9999 < v)) ∨
       (∃ a, k = .divisionByZero ∧ decode w = .instr (.divide a) ∧ s.memRead a = some 0) ∨
       (∃ a v r, s.memRead a = some v ∧
          ((decode w = .instr (.add a) ∧ r = s.acc + v) ∨ (decode w = .instr (.subtract a) ∧ r = s.acc - v) ∨
            (decode w = .instr (.multiply a) ∧ r = s.acc * v)) ∧
          ((k = .overflow ∧ 9999 < r) ∨ (k = .underflow ∧ r < -9999))))

/-- 10_state.md R30: execution starts in `RUNNING`; only a HALT moves to `HALTED`, only an ABEND of one of the six kinds,
reported on OUT, to `ABENDED(kind)`; neither is ever left. -/
def Obligations.RunStateMovesOnlyByHaltOrAbend : Prop :=
  ∀ s t : State, step s = .next t →
    (s.phase = .loaded → t.phase = .run .running) ∧
    (t.phase = .run .halted →
      s.phase = .run .running ∧ ∃ w a, s.memRead s.ic = some w ∧ decode w = .instr (.halt a)) ∧
    (∀ k, t.phase = .run (.abended k) →
      s.phase = .run .running ∧ t.out = s.out ++ [.abend k] ∧ k ≠ .invalidWord ∧ k ≠ .programTooLarge) ∧
    s.phase ≠ .run .halted ∧ ∀ k, s.phase ≠ .run (.abended k)

/-- R24, R33: a step that changes `acc` runs a LOAD, ADD, SUBTRACT, MULTIPLY or DIVIDE. -/
def Obligations.OnlyLoadAndArithmeticWriteTheAccumulator : Prop :=
  ∀ s t : State, step s = .next t → t.acc ≠ s.acc →
    ∃ w a, s.memRead s.ic = some w ∧
      (decode w = .instr (.load a) ∨ decode w = .instr (.add a) ∨ decode w = .instr (.subtract a) ∨
        decode w = .instr (.multiply a) ∨ decode w = .instr (.divide a))

/-- R36, R56: a step of the engine that changes what a slot reads runs a READ or a STORE whose operand is that slot. -/
def Obligations.OnlyReadAndStoreWriteMemory : Prop :=
  ∀ (s t : State) (b : Int), s.phase = .run .running → step s = .next t → t.memRead b ≠ s.memRead b →
    ∃ w, s.memRead s.ic = some w ∧ (decode w = .instr (.read b) ∨ decode w = .instr (.store b))

/-- R37, R38, R204: a step leaves the host's stream alone, takes at most one value of it, and adds at most one event to
OUT, at its end. (One value a step in the loader too is the model's choice, log entry 8.) -/
def Obligations.PortsMoveForwardOnly : Prop :=
  ∀ s t : State, step s = .next t →
    t.stream = s.stream ∧ t.streamEnded = s.streamEnded ∧ (t.inPos = s.inPos ∨ t.inPos = s.inPos + 1) ∧
      (t.out = s.out ∨ ∃ e, t.out = s.out ++ [e])

/-- R37: values behind the next one do not change what a step does. -/
def Obligations.UnreadInputDoesNotMatter : Prop :=
  ∀ (s t : State) (vs : List Int), s.inPos < s.stream.length → step s = .next t →
    step { s with stream := s.stream ++ vs } = .next { t with stream := t.stream ++ vs }

/-- 20_memory.md R61: the Word that a STORE wrote is what the next step runs, where control goes to it. -/
def Obligations.AStoredWordIsExecutedNext : Prop :=
  ∀ (s t : State) (w a : Int) (i : Instr), s.phase = .run .running → s.memRead s.ic = some w →
    decode w = .instr (.store a) → step s = .next t → t.ic = a → decode s.acc = .instr i → t.heldBy i = false →
    step t = exec i { t with ir := s.acc, opc := Int.tdiv s.acc 100, opd := Int.tmod s.acc 100 }

/-- R60: after any sequence of writes a slot reads as its latest one, and as 7777 where there was none. -/
def Obligations.AReadGivesTheLatestWrite : Prop :=
  ∀ (ws : List (Nat × Int)) (a : Nat),
    (ws.foldl (fun m p => Memory.set m p.1 p.2) []).get a =
      match ws.reverse.find? (fun p => p.1 == a) with
      | some p => p.2
      | none => 7777

/-- Memories in the model's canonical form (log entry 1) that read alike are equal. -/
def Obligations.MemoriesThatReadAlikeAreEqual : Prop :=
  ∀ m n : Memory, m.wf = true → n.wf = true → (∀ a, m.get a = n.get a) → m = n

/-- R112: in `RUNNING` every step is enabled but a READ for which the stream has no value. -/
def Obligations.EveryOtherStepIsEnabled : Prop :=
  ∀ s : State, s.phase = .run .running →
    (∀ w a, s.memRead s.ic = some w → decode w = .instr (.read a) → s.inPos < s.stream.length) →
    ∃ t, step s = .next t

/-- R105: every word has a meaning: no step is refused. -/
def Obligations.NoStepIsRefused : Prop :=
  ∀ (s : State) (r : Refusal), step s ≠ .refused r

/-- R55: from a state of the invariant no step accesses an address the memory does not have. -/
def Obligations.NoStepAccessesABadAddress : Prop :=
  ∀ s : State, s.Inv → step s ≠ .fault .badAddress

/-- R146: on Words DIVIDE gives a Word, and raises no range ABEND. -/
def Obligations.DivideStaysInTheWordRange : Prop :=
  ∀ (s t : State) (a : Int), s.holdsWords → exec (.divide a) s = .next t →
    -9999 ≤ t.acc ∧ t.acc ≤ 9999 ∧ (t.phase = s.phase ∨ t.phase = .run (.abended .divisionByZero))

/-! ### Invariants -/

/-- The machine's invariant holds at construction. (The registers' values there are the spec's own decision D3, log entry
2; the canonical form is log entry 1.) -/
def Obligations.InvariantHoldsAtConstruction : Prop := State.reset.Inv

/-- R22, R25, R27, R28, R30: every step keeps the invariant: every slot, `acc` and `ir` a Word; `ic` in 0 to 100; `opc`
and `opd` the fields of `ir`; the run state legal; the memory canonical (log entry 1); the counts in their bounds. -/
def Obligations.EveryStepKeepsTheInvariant : Prop :=
  ∀ s t : State, s.Inv → step s = .next t → t.Inv

/-- R38, R204, R164: every step keeps OUT and the run state in agreement: no final event before the end, exactly one, the
last, after it, and the one that names the end. -/
def Obligations.EveryStepKeepsOutputAndRunStateInAgreement : Prop :=
  ∀ s t : State, s.outMatchesPhase → step s = .next t → t.outMatchesPhase

/-- R236, R241: until execution starts, every step keeps the registers at their construction values and the slots behind
the loader's count at the fill word. (The values are the spec's own decision D3, log entry 2.) -/
def Obligations.TheLoadLeavesTheRestFresh : Prop :=
  ∀ s t : State, s.unstartedIsFresh → step s = .next t → t.unstartedIsFresh

/-- Both hold at construction. -/
def Obligations.OutputAndFreshnessHoldAtConstruction : Prop :=
  State.reset.outMatchesPhase ∧ State.reset.unstartedIsFresh

/-- R216: what the host may do to a machine, supply input values and end the stream, keeps the invariant. (The form in which
values wait is the model's choice, log entry 5.) -/
def Obligations.HostInputKeepsTheInvariant : Prop :=
  ∀ (s : State) (vs : List Int), s.Inv → (s.supply vs).Inv ∧ s.endInput.Inv

/-! ### The load -/

/-- 70_reset_and_hazards.md R234: what the loader does with a value: the terminator first, then the range, then the
capacity, else the store. (One value a step is the model's choice, log entry 8; the reported event the spec's own decision
D16, log entry 11.) -/
def Obligations.TheLoaderTakesAValue : Prop :=
  ∀ (s : State) (v : Int), s.phase = .loading → s.stream[s.inPos]? = some v →
    (v = -99999 → step s = .next { s with inPos := s.inPos + 1, phase := .loaded }) ∧
    (v ≠ -99999 → (v < -9999 ∨ 9999 < v) → step s = .next { s with
      inPos := s.inPos + 1, phase := .loadFailed .invalidWord, out := s.out ++ [.abend .invalidWord] }) ∧
    (-9999 ≤ v → v ≤ 9999 → s.loadCount = 100 → step s = .next { s with
      inPos := s.inPos + 1, phase := .loadFailed .programTooLarge, out := s.out ++ [.abend .programTooLarge] }) ∧
    (-9999 ≤ v → v ≤ 9999 → s.loadCount < 100 →
      ∃ t, step s = .next t ∧ (∀ b, t.memRead b = if b = s.loadCount then some v else s.memRead b) ∧
        t = { s with mem := t.mem, inPos := s.inPos + 1, loadCount := s.loadCount + 1 })

/-- R240, R215: while the loader waits for a value nothing changes. That the model answers such a wait with the unchanged
state is its own choice (log entry 6). -/
def Obligations.WaitingLoaderChangesNothing : Prop :=
  ∀ s : State, s.phase = .loading → s.inNext = .pending → step s = .next s

/-- R235: a load stream that ends before the terminator is a successful load under `accept` and a failed one, with no run,
under `reject`, whichever the open policy is (log entry 9); what `reject` reports is open (log entry 10). -/
def Obligations.TheLoaderAtEndOfStream : Prop :=
  ∀ s : State, s.phase = .loading → s.inNext = .endOfStream →
    ∃ t, step s = .next t ∧
      ((Config.loadEofPolicy = .accept ∧ t = { s with phase := .loaded }) ∨
       (Config.loadEofPolicy = .reject ∧ t = { s with phase := .loadFailed .endOfStream, out := t.out } ∧
          ∀ u, step t ≠ .next u))

/-- R235: loading Words up to the terminator stores exactly those Words, in order, and succeeds, whatever follows the
terminator; everything behind them keeps the fill word, and the rest of the stream stays for READ. (The
number of steps, one a value, is the model's choice, log entry 8.) -/
def Obligations.TheTerminatorEndsTheLoad : Prop :=
  ∀ ts rest : List Int, (∀ v ∈ ts, -9999 ≤ v ∧ v ≤ 9999) → ts.length ≤ 100 →
    ∃ t : State, Sys2Proof.core.run (ts.length + 1) (State.reset.supply (ts ++ -99999 :: rest)) = .next t ∧
      t.phase = .loaded ∧ t.loadCount = ts.length ∧ t.inPos = ts.length + 1 ∧ t.out = [] ∧
      ∀ a : Nat, a < 100 → t.memRead a = some (ts.getD a 7777)

/-- R241: of 101 Words the first 100 are stored, and the load fails with ProgramTooLarge. (The number of steps, one a value,
is the model's choice, log entry 8; the reported event the spec's own decision D16, log entry 11.) -/
def Obligations.TheHundredFirstWordFailsTheLoad : Prop :=
  ∀ ts rest : List Int, (∀ v ∈ ts, -9999 ≤ v ∧ v ≤ 9999) → ts.length = 101 →
    ∃ t : State, Sys2Proof.core.run 101 (State.reset.supply (ts ++ rest)) = .next t ∧
      t.phase = .loadFailed .programTooLarge ∧ t.out = [.abend .programTooLarge] ∧
      ∀ a : Nat, a < 100 → t.memRead a = ts[a]?

/-- R235: after a failed load there is no run. -/
def Obligations.AFailedLoadHasNoRun : Prop :=
  ∀ (s : State) (r : LoadFailure), s.phase = .loadFailed r → ∀ t, step s ≠ .next t

/-- R236: after a successful load execution starts in `RUNNING` at address 0 with all else as the load left it. (That the
start is a step of its own is the model's choice, log entry 8.) -/
def Obligations.ExecutionStartsAtAddressZero : Prop :=
  ∀ s : State, s.phase = .loaded → step s = .next { s with phase := .run .running, ic := 0 }

/-! ### Construction and ports -/

/-- 10_state.md R41: every slot holds 7777, the registers 0 (the spec's own decision D3, log entry 2), OUT is empty, and no
run has started. -/
def Obligations.ConstructionState : Prop :=
  (∀ a : Int, 0 ≤ a → a ≤ 99 → State.reset.memRead a = some 7777) ∧ State.reset.ic = 0 ∧ State.reset.acc = 0 ∧
    State.reset.ir = 0 ∧ State.reset.opc = 0 ∧ State.reset.opd = 0 ∧ State.reset.out = [] ∧
    ∀ st, State.reset.phase ≠ .run st

/-- R39, R201: the codes of the STATUS port. (They are the spec's own decision D7, log entry 15.) -/
def Obligations.StatusShowsTheRunStateCodes : Prop :=
  ∀ s : State,
    (s.phase = .run .running → s.status = some (0, 0)) ∧
    (s.phase = .run .halted → s.status = some (1, 0)) ∧
    (s.phase = .run (.abended .addressabilityError) → s.status = some (2, 3)) ∧
    (s.phase = .run (.abended .illegalInput) → s.status = some (2, 4)) ∧
    (s.phase = .run (.abended .overflow) → s.status = some (2, 5)) ∧
    (s.phase = .run (.abended .underflow) → s.status = some (2, 6)) ∧
    (s.phase = .run (.abended .divisionByZero) → s.status = some (2, 7)) ∧
    (s.phase = .run (.abended .invalidOpcode) → s.status = some (2, 8))

/-- R40: DUMP, where it is given, shows the five registers and the 100 slots as they are; it is given after a load and after
a run, and not during either (the spec's own decision D14, log entry 14). -/
def Obligations.DumpShowsTheStateAtRest : Prop :=
  ∀ s : State,
    (s.dump.isSome = true ↔ s.phase ≠ .loading ∧ s.phase ≠ .run .running) ∧
    ∀ d, s.dump = some d →
      d.acc = s.acc ∧ d.ir = s.ir ∧ d.ic = s.ic ∧ d.opc = s.opc ∧ d.opd = s.opd ∧
        ∀ a : Nat, d.mem[a]? = s.memRead a

/-- 41_io.md R124: a Word is rendered as its sign and its four decimal digits (R10), five characters in all. -/
def Obligations.ARenderedWordIsItsSignAndFourDigits : Prop :=
  ∀ v : Int, -9999 ≤ v → v ≤ 9999 →
    ∃ d3 d2 d1 d0 : Nat, d3 < 10 ∧ d2 < 10 ∧ d1 < 10 ∧ d0 < 10 ∧
      v.natAbs = 1000 * d3 + 100 * d2 + 10 * d1 + d0 ∧
      renderWord v = [if v < 0 then '-' else '+', d3.digitChar, d2.digitChar, d1.digitChar, d0.digitChar]
end

