-- ==== Sys2Proof/Laws/Params.lean ====
section
/-!
SUPPORT. The values of the parameters of 00_scope.md R6, and that `tdiv` and `trem` are the functions R11 defines.
-/

namespace Sys2Proof

theorem Config.wordMin_val : Config.wordMin = -9999 := rfl
theorem Config.wordMax_val : Config.wordMax = 9999 := rfl
theorem Config.memWords_val : Config.memWords = 100 := rfl
theorem Config.fillWord_val : Config.fillWord = 7777 := rfl
theorem Config.loadTerminator_val : Config.loadTerminator = -99999 := rfl
theorem Config.loadCapacity_val : Config.loadCapacity = 100 := rfl
theorem Config.opcDivisor_val : Config.opcDivisor = 100 := rfl
theorem Config.entryIc_val : Config.entryIc = 0 := rfl

/-- R11's formula for `tdiv`. -/
theorem tdiv_eq_sign_mul (a b : Int) : tdiv a b = a.sign * b.sign * ((a.natAbs / b.natAbs : Nat) : Int) := by
  have pos (n : Nat) : |(n : Int) + 1| = n + 1 := abs_of_nonneg (by omega)
  rcases a with m | m <;> rcases b with n | n
  · rcases m with _ | m <;> rcases n with _ | n <;> simp [tdiv, Int.tdiv, pos]
  · rcases m with _ | m <;> simp [tdiv, Int.tdiv, pos]
  · rcases n with _ | n <;> simp [tdiv, Int.tdiv, pos]
  · simp [tdiv, Int.tdiv]

/-- R11's formula for `trem`. -/
theorem trem_eq_sub (a b : Int) : trem a b = a - b * tdiv a b := by
  have := Int.tmod_add_mul_tdiv a b
  simp only [trem, tdiv]; omega

/-- On words that are not negative the fields are the digit pairs (R10). -/
theorem fields_of_nonneg {w : Int} (h : 0 ≤ w) : opcField w = w / 100 ∧ opdField w = w % 100 := by
  simp only [opcField, opdField, tdiv, trem, Config.opcDivisor_val]
  exact ⟨Int.tdiv_eq_ediv_of_nonneg h, Int.tmod_eq_emod_of_nonneg h⟩

/-- On negative words both fields are zero or negative (R72, R76). -/
theorem fields_of_neg {w : Int} (h : w < 0) :
    opcField w = -(-w / 100) ∧ opdField w = -(-w % 100) := by
  obtain ⟨h1, h2⟩ := fields_of_nonneg (w := -w) (by omega)
  simp only [opcField, opdField, tdiv, trem, Config.opcDivisor_val, Int.neg_tdiv, Int.neg_tmod] at *
  omega

theorem inWordRange_iff {v : Int} : inWordRange v = true ↔ -9999 ≤ v ∧ v ≤ 9999 := by
  rw [inWordRange, Bool.and_eq_true, decide_eq_true_eq, decide_eq_true_eq]; rfl

/-- The quotient of a Word is no larger than the Word (43_arithmetic.md R146). -/
theorem tdiv_inWordRange {a : Int} (d : Int) (h : inWordRange a) : inWordRange (tdiv a d) := by
  have h1 : (tdiv a d).natAbs ≤ a.natAbs := by
    simp only [tdiv, Int.natAbs_tdiv]; exact Nat.div_le_self _ _
  rw [inWordRange_iff] at *
  omega

end Sys2Proof
end

