-- ==== Sys2Proof/Laws/Decode.lean ====
section
/-!
SUPPORT. The small lemmas of the decoder: what a decoded word's opcode and operand are (30_encoding.md R72, R73).
-/

namespace Sys2Proof

@[simp] theorem Opcode.opcode_withOperand (op : Opcode) (a : Int) : (op.withOperand a).opcode = op := by
  cases op <;> rfl

@[simp] theorem Opcode.operand_withOperand (op : Opcode) (a : Int) : (op.withOperand a).operand = a := by
  cases op <;> rfl

@[simp] theorem Instr.withOperand_opcode (i : Instr) : i.opcode.withOperand i.operand = i := by
  cases i <;> rfl

/-- The table of R73 read both ways: no two operation codes share a number. -/
theorem opcodeOf_eq_some {n : Int} {op : Opcode} : opcodeOf n = some op ↔ opcodeNumber op = n := by
  constructor
  · intro h; simpa [opcodeOf] using List.find?_some h
  · rintro rfl; cases op <;> rfl

theorem opcodeOf_eq_none {n : Int} : opcodeOf n = none ↔ ∀ op, opcodeNumber op ≠ n := by
  constructor
  · intro h op hop; simp [opcodeOf_eq_some.2 hop] at h
  · intro h
    cases ho : opcodeOf n with
    | none => rfl
    | some op => exact absurd (opcodeOf_eq_some.1 ho) (h op)

/-- Every defined number lies between READ's and HALT's. -/
theorem opcodeNumber_bounds (op : Opcode) : 11 ≤ opcodeNumber op ∧ opcodeNumber op ≤ 44 := by
  cases op <;> decide

/-- What the decoder reads: the instruction whose number and operand are the word's two fields. -/
theorem decode_eq_instr {w : Int} {i : Instr} :
    decode w = .instr i ↔ opcodeNumber i.opcode = opcField w ∧ i.operand = opdField w := by
  unfold decode
  constructor
  · intro h
    split at h
    · next op hop =>
      cases h
      exact ⟨by simpa using opcodeOf_eq_some.1 hop, by simp⟩
    · cases h
  · rintro ⟨h1, h2⟩
    rw [opcodeOf_eq_some.2 h1, ← h2]; simp

theorem Instr.wellFormed_iff {i : Instr} : i.wellFormed = true ↔ 0 ≤ i.operand ∧ i.operand < 100 := by
  rw [Instr.wellFormed, operandInField, Bool.and_eq_true, decide_eq_true_eq, decide_eq_true_eq]; rfl

theorem decode_eq_invalidOpcode {w : Int} :
    decode w = .invalidOpcode ↔ ∀ op, opcodeNumber op ≠ opcField w := by
  rw [← opcodeOf_eq_none]
  unfold decode
  cases opcodeOf (opcField w) <;> simp

end Sys2Proof
end

