-- ==== Sys2Proof/Laws/Memory.lean ====
section
/-!
SUPPORT. The laws of the memory: what a read gives after a write, and that every write keeps the canonical form and
the Word range.
-/

namespace Sys2Proof.Machine

theorem Memory.wf_iff {m : Memory} :
    m.wf = true ↔ (m.Pairwise fun c d => c.1 < d.1) ∧ ∀ c ∈ m, c.1 < Config.memWords ∧ c.2 ≠ Config.fillWord := by
  simp [Memory.wf]

theorem Memory.get_drop (m : Memory) (a b : Nat) :
    (m.drop a).get b = if b = a then Config.fillWord else m.get b := by
  induction m with
  | nil => simp [Memory.drop, Memory.get]
  | cons c m ih =>
    obtain ⟨x, v⟩ := c
    simp only [Memory.drop, List.filter_cons] at *
    by_cases hx : x = a
    · subst hx; simp only [bne_self_eq_false, Bool.false_eq_true, if_false, ih, Memory.get]
      by_cases hb : b = x
      · simp [hb]
      · simp [hb, Ne.symm hb]
    · simp only [bne_iff_ne, ne_eq, hx, not_false_eq_true, if_true, Memory.get, ih]
      by_cases hb : x = b
      · subst hb; simp [hx]
      · simp [hb]

theorem Memory.get_put (m : Memory) (a b : Nat) (v : Int) :
    (m.put a v).get b = if b = a then v else m.get b := by
  induction m with
  | nil => simp [Memory.put, Memory.get, eq_comm]
  | cons c m ih =>
    obtain ⟨x, w⟩ := c
    simp only [Memory.put]
    split
    · by_cases h : b = a <;> simp [Memory.get, h, Ne.symm]
    · split
      · next h => subst h; by_cases hb : b = x <;> simp [Memory.get, hb, eq_comm (a := x)]
      · next h =>
        by_cases hb : x = b
        · subst hb; simp [Memory.get, h]
        · simp [Memory.get, hb, ih]

/-- Reading after a write (20_memory.md R60), whatever the list. -/
theorem Memory.get_set (m : Memory) (a b : Nat) (v : Int) :
    (m.set a v).get b = if b = a then v else m.get b := by
  unfold Memory.set
  split
  · next h => rw [Memory.get_drop, h]
  · exact Memory.get_put m a b v

@[simp] theorem Memory.get_set_self (m : Memory) (a : Nat) (v : Int) : (m.set a v).get a = v := by
  simp [Memory.get_set]

theorem Memory.get_set_of_ne (m : Memory) {a b : Nat} (v : Int) (h : b ≠ a) : (m.set a v).get b = m.get b := by
  simp [Memory.get_set, h]

theorem Memory.mem_put {m : Memory} {a : Nat} {v : Int} {c : Cell} (h : c ∈ m.put a v) : c = (a, v) ∨ c ∈ m := by
  induction m with
  | nil => simpa [Memory.put] using h
  | cons d m ih =>
    obtain ⟨x, w⟩ := d
    simp only [Memory.put] at h
    split at h
    · simpa using h
    · split at h
      · rcases List.mem_cons.1 h with h | h
        · exact .inl h
        · exact .inr (List.mem_cons_of_mem _ h)
      · rcases List.mem_cons.1 h with h | h
        · exact .inr (h ▸ List.mem_cons_self)
        · exact (ih h).imp id (List.mem_cons_of_mem _)

/-- A cell of a written memory is the one written, or was there before. -/
theorem Memory.mem_set {m : Memory} {a : Nat} {v : Int} {c : Cell} (h : c ∈ m.set a v) :
    (c = (a, v) ∧ v ≠ Config.fillWord) ∨ c ∈ m := by
  unfold Memory.set at h
  split at h
  · exact .inr (List.mem_filter.1 h).1
  · next hv => exact (Memory.mem_put h).imp (⟨·, hv⟩) id

theorem Memory.put_sorted {m : Memory} (a : Nat) (v : Int) (h : m.Pairwise fun c d => c.1 < d.1) :
    (m.put a v).Pairwise fun c d => c.1 < d.1 := by
  induction m with
  | nil => simp [Memory.put]
  | cons c m ih =>
    obtain ⟨x, w⟩ := c
    obtain ⟨h1, h2⟩ := List.pairwise_cons.1 h
    simp only [Memory.put]
    split
    · next hx =>
      refine List.pairwise_cons.2 ⟨fun d hd => ?_, h⟩
      rcases List.mem_cons.1 hd with rfl | hd
      · exact hx
      · exact Nat.lt_trans hx (h1 d hd)
    · split
      · next hx => subst hx; exact List.pairwise_cons.2 ⟨h1, h2⟩
      · next hx hne =>
        refine List.pairwise_cons.2 ⟨fun d hd => ?_, ih h2⟩
        rcases Memory.mem_put hd with rfl | hd
        · simp only; omega
        · exact h1 d hd

/-- Every write inside the memory keeps the canonical form. -/
theorem Memory.set_wf {m : Memory} {a : Nat} (v : Int) (h : m.wf) (ha : a < Config.memWords) : (m.set a v).wf := by
  rw [Memory.wf_iff] at *
  refine ⟨?_, fun c hc => ?_⟩
  · unfold Memory.set
    split
    · exact h.1.filter _
    · exact Memory.put_sorted a v h.1
  · rcases Memory.mem_set hc with ⟨rfl, hv⟩ | hc
    · exact ⟨ha, hv⟩
    · exact h.2 c hc

/-- Every write of a Word keeps the memory full of Words. -/
theorem Memory.set_words {m : Memory} {a : Nat} {v : Int} (h : ∀ c ∈ m, inWordRange c.2) (hv : inWordRange v) :
    ∀ c ∈ m.set a v, inWordRange c.2 := by
  intro c hc
  rcases Memory.mem_set hc with ⟨rfl, -⟩ | hc
  · exact hv
  · exact h c hc

/-- Every slot of such a memory reads as a Word, the unlisted ones too. -/
theorem Memory.get_word {m : Memory} (h : ∀ c ∈ m, inWordRange c.2) (a : Nat) : inWordRange (m.get a) := by
  induction m with
  | nil => exact (by decide : inWordRange Config.fillWord)
  | cons c m ih =>
    obtain ⟨x, v⟩ := c
    simp only [Memory.get]
    split
    · exact h (x, v) List.mem_cons_self
    · exact ih fun c hc => h c (List.mem_cons_of_mem _ hc)

/-- In the canonical form nothing below the first listed address is listed. -/
theorem Memory.get_of_lt_all {m : Memory} {a : Nat} (h : ∀ c ∈ m, a < c.1) : m.get a = Config.fillWord := by
  induction m with
  | nil => rfl
  | cons c m ih =>
    have := h c List.mem_cons_self
    rw [Memory.get, if_neg (by omega)]
    exact ih fun c hc => h c (List.mem_cons_of_mem _ hc)

end Sys2Proof.Machine
end

