-- ==== Sys2Proof/Laws/State.lean ====
section
/-!
SUPPORT. One lemma per field per update of the state: what the update writes, and what it leaves.
-/

namespace Sys2Proof.Machine

@[simp] theorem State.setAcc_mem (s : State) (v : Int) : (s.setAcc v).mem = s.mem := rfl
@[simp] theorem State.setAcc_acc (s : State) (v : Int) : (s.setAcc v).acc = v := rfl
@[simp] theorem State.setAcc_ic (s : State) (v : Int) : (s.setAcc v).ic = s.ic := rfl
@[simp] theorem State.setAcc_ir (s : State) (v : Int) : (s.setAcc v).ir = s.ir := rfl
@[simp] theorem State.setAcc_opc (s : State) (v : Int) : (s.setAcc v).opc = s.opc := rfl
@[simp] theorem State.setAcc_opd (s : State) (v : Int) : (s.setAcc v).opd = s.opd := rfl
@[simp] theorem State.setAcc_phase (s : State) (v : Int) : (s.setAcc v).phase = s.phase := rfl
@[simp] theorem State.setAcc_loadCount (s : State) (v : Int) : (s.setAcc v).loadCount = s.loadCount := rfl
@[simp] theorem State.setAcc_stream (s : State) (v : Int) : (s.setAcc v).stream = s.stream := rfl
@[simp] theorem State.setAcc_streamEnded (s : State) (v : Int) : (s.setAcc v).streamEnded = s.streamEnded := rfl
@[simp] theorem State.setAcc_inPos (s : State) (v : Int) : (s.setAcc v).inPos = s.inPos := rfl
@[simp] theorem State.setAcc_out (s : State) (v : Int) : (s.setAcc v).out = s.out := rfl

@[simp] theorem State.setIc_mem (s : State) (v : Int) : (s.setIc v).mem = s.mem := rfl
@[simp] theorem State.setIc_acc (s : State) (v : Int) : (s.setIc v).acc = s.acc := rfl
@[simp] theorem State.setIc_ic (s : State) (v : Int) : (s.setIc v).ic = v := rfl
@[simp] theorem State.setIc_ir (s : State) (v : Int) : (s.setIc v).ir = s.ir := rfl
@[simp] theorem State.setIc_opc (s : State) (v : Int) : (s.setIc v).opc = s.opc := rfl
@[simp] theorem State.setIc_opd (s : State) (v : Int) : (s.setIc v).opd = s.opd := rfl
@[simp] theorem State.setIc_phase (s : State) (v : Int) : (s.setIc v).phase = s.phase := rfl
@[simp] theorem State.setIc_loadCount (s : State) (v : Int) : (s.setIc v).loadCount = s.loadCount := rfl
@[simp] theorem State.setIc_stream (s : State) (v : Int) : (s.setIc v).stream = s.stream := rfl
@[simp] theorem State.setIc_streamEnded (s : State) (v : Int) : (s.setIc v).streamEnded = s.streamEnded := rfl
@[simp] theorem State.setIc_inPos (s : State) (v : Int) : (s.setIc v).inPos = s.inPos := rfl
@[simp] theorem State.setIc_out (s : State) (v : Int) : (s.setIc v).out = s.out := rfl

@[simp] theorem State.setRun_mem (s : State) (st : RunState) : (s.setRun st).mem = s.mem := rfl
@[simp] theorem State.setRun_acc (s : State) (st : RunState) : (s.setRun st).acc = s.acc := rfl
@[simp] theorem State.setRun_ic (s : State) (st : RunState) : (s.setRun st).ic = s.ic := rfl
@[simp] theorem State.setRun_ir (s : State) (st : RunState) : (s.setRun st).ir = s.ir := rfl
@[simp] theorem State.setRun_opc (s : State) (st : RunState) : (s.setRun st).opc = s.opc := rfl
@[simp] theorem State.setRun_opd (s : State) (st : RunState) : (s.setRun st).opd = s.opd := rfl
@[simp] theorem State.setRun_phase (s : State) (st : RunState) : (s.setRun st).phase = .run st := rfl
@[simp] theorem State.setRun_loadCount (s : State) (st : RunState) : (s.setRun st).loadCount = s.loadCount := rfl
@[simp] theorem State.setRun_stream (s : State) (st : RunState) : (s.setRun st).stream = s.stream := rfl
@[simp] theorem State.setRun_streamEnded (s : State) (st : RunState) : (s.setRun st).streamEnded = s.streamEnded := rfl
@[simp] theorem State.setRun_inPos (s : State) (st : RunState) : (s.setRun st).inPos = s.inPos := rfl
@[simp] theorem State.setRun_out (s : State) (st : RunState) : (s.setRun st).out = s.out := rfl

@[simp] theorem State.emit_mem (s : State) (e : Event) : (s.emit e).mem = s.mem := rfl
@[simp] theorem State.emit_acc (s : State) (e : Event) : (s.emit e).acc = s.acc := rfl
@[simp] theorem State.emit_ic (s : State) (e : Event) : (s.emit e).ic = s.ic := rfl
@[simp] theorem State.emit_ir (s : State) (e : Event) : (s.emit e).ir = s.ir := rfl
@[simp] theorem State.emit_opc (s : State) (e : Event) : (s.emit e).opc = s.opc := rfl
@[simp] theorem State.emit_opd (s : State) (e : Event) : (s.emit e).opd = s.opd := rfl
@[simp] theorem State.emit_phase (s : State) (e : Event) : (s.emit e).phase = s.phase := rfl
@[simp] theorem State.emit_loadCount (s : State) (e : Event) : (s.emit e).loadCount = s.loadCount := rfl
@[simp] theorem State.emit_stream (s : State) (e : Event) : (s.emit e).stream = s.stream := rfl
@[simp] theorem State.emit_streamEnded (s : State) (e : Event) : (s.emit e).streamEnded = s.streamEnded := rfl
@[simp] theorem State.emit_inPos (s : State) (e : Event) : (s.emit e).inPos = s.inPos := rfl
@[simp] theorem State.emit_out (s : State) (e : Event) : (s.emit e).out = s.out ++ [e] := rfl

@[simp] theorem State.setMem_mem (s : State) (m : Memory) : (s.setMem m).mem = m := rfl
@[simp] theorem State.setMem_acc (s : State) (m : Memory) : (s.setMem m).acc = s.acc := rfl
@[simp] theorem State.setMem_ic (s : State) (m : Memory) : (s.setMem m).ic = s.ic := rfl
@[simp] theorem State.setMem_ir (s : State) (m : Memory) : (s.setMem m).ir = s.ir := rfl
@[simp] theorem State.setMem_opc (s : State) (m : Memory) : (s.setMem m).opc = s.opc := rfl
@[simp] theorem State.setMem_opd (s : State) (m : Memory) : (s.setMem m).opd = s.opd := rfl
@[simp] theorem State.setMem_phase (s : State) (m : Memory) : (s.setMem m).phase = s.phase := rfl
@[simp] theorem State.setMem_loadCount (s : State) (m : Memory) : (s.setMem m).loadCount = s.loadCount := rfl
@[simp] theorem State.setMem_stream (s : State) (m : Memory) : (s.setMem m).stream = s.stream := rfl
@[simp] theorem State.setMem_streamEnded (s : State) (m : Memory) : (s.setMem m).streamEnded = s.streamEnded := rfl
@[simp] theorem State.setMem_inPos (s : State) (m : Memory) : (s.setMem m).inPos = s.inPos := rfl
@[simp] theorem State.setMem_out (s : State) (m : Memory) : (s.setMem m).out = s.out := rfl

@[simp] theorem State.advance_mem (s : State) : s.advance.mem = s.mem := rfl
@[simp] theorem State.advance_acc (s : State) : s.advance.acc = s.acc := rfl
@[simp] theorem State.advance_ic (s : State) : s.advance.ic = s.ic + 1 := rfl
@[simp] theorem State.advance_ir (s : State) : s.advance.ir = s.ir := rfl
@[simp] theorem State.advance_opc (s : State) : s.advance.opc = s.opc := rfl
@[simp] theorem State.advance_opd (s : State) : s.advance.opd = s.opd := rfl
@[simp] theorem State.advance_phase (s : State) : s.advance.phase = s.phase := rfl
@[simp] theorem State.advance_loadCount (s : State) : s.advance.loadCount = s.loadCount := rfl
@[simp] theorem State.advance_stream (s : State) : s.advance.stream = s.stream := rfl
@[simp] theorem State.advance_streamEnded (s : State) : s.advance.streamEnded = s.streamEnded := rfl
@[simp] theorem State.advance_inPos (s : State) : s.advance.inPos = s.inPos := rfl
@[simp] theorem State.advance_out (s : State) : s.advance.out = s.out := rfl

@[simp] theorem State.raiseAbend_mem (s : State) (k : AbendKind) : (s.raiseAbend k).mem = s.mem := rfl
@[simp] theorem State.raiseAbend_acc (s : State) (k : AbendKind) : (s.raiseAbend k).acc = s.acc := rfl
@[simp] theorem State.raiseAbend_ic (s : State) (k : AbendKind) : (s.raiseAbend k).ic = s.ic := rfl
@[simp] theorem State.raiseAbend_ir (s : State) (k : AbendKind) : (s.raiseAbend k).ir = s.ir := rfl
@[simp] theorem State.raiseAbend_opc (s : State) (k : AbendKind) : (s.raiseAbend k).opc = s.opc := rfl
@[simp] theorem State.raiseAbend_opd (s : State) (k : AbendKind) : (s.raiseAbend k).opd = s.opd := rfl
@[simp] theorem State.raiseAbend_phase (s : State) (k : AbendKind) : (s.raiseAbend k).phase = .run (.abended k) := rfl
@[simp] theorem State.raiseAbend_loadCount (s : State) (k : AbendKind) : (s.raiseAbend k).loadCount = s.loadCount := rfl
@[simp] theorem State.raiseAbend_stream (s : State) (k : AbendKind) : (s.raiseAbend k).stream = s.stream := rfl
@[simp] theorem State.raiseAbend_streamEnded (s : State) (k : AbendKind) : (s.raiseAbend k).streamEnded = s.streamEnded := rfl
@[simp] theorem State.raiseAbend_inPos (s : State) (k : AbendKind) : (s.raiseAbend k).inPos = s.inPos := rfl
@[simp] theorem State.raiseAbend_out (s : State) (k : AbendKind) : (s.raiseAbend k).out = s.out ++ [.abend k] := rfl

@[simp] theorem State.inTake_mem (s : State) : s.inTake.mem = s.mem := rfl
@[simp] theorem State.inTake_acc (s : State) : s.inTake.acc = s.acc := rfl
@[simp] theorem State.inTake_ic (s : State) : s.inTake.ic = s.ic := rfl
@[simp] theorem State.inTake_ir (s : State) : s.inTake.ir = s.ir := rfl
@[simp] theorem State.inTake_opc (s : State) : s.inTake.opc = s.opc := rfl
@[simp] theorem State.inTake_opd (s : State) : s.inTake.opd = s.opd := rfl
@[simp] theorem State.inTake_phase (s : State) : s.inTake.phase = s.phase := rfl
@[simp] theorem State.inTake_loadCount (s : State) : s.inTake.loadCount = s.loadCount := rfl
@[simp] theorem State.inTake_stream (s : State) : s.inTake.stream = s.stream := rfl
@[simp] theorem State.inTake_streamEnded (s : State) : s.inTake.streamEnded = s.streamEnded := rfl
@[simp] theorem State.inTake_inPos (s : State) : s.inTake.inPos = s.inPos + 1 := rfl
@[simp] theorem State.inTake_out (s : State) : s.inTake.out = s.out := rfl

@[simp] theorem State.latch_mem (s : State) (w : Int) : (s.latch w).mem = s.mem := rfl
@[simp] theorem State.latch_acc (s : State) (w : Int) : (s.latch w).acc = s.acc := rfl
@[simp] theorem State.latch_ic (s : State) (w : Int) : (s.latch w).ic = s.ic := rfl
@[simp] theorem State.latch_ir (s : State) (w : Int) : (s.latch w).ir = w := rfl
@[simp] theorem State.latch_opc (s : State) (w : Int) : (s.latch w).opc = opcField w := rfl
@[simp] theorem State.latch_opd (s : State) (w : Int) : (s.latch w).opd = opdField w := rfl
@[simp] theorem State.latch_phase (s : State) (w : Int) : (s.latch w).phase = s.phase := rfl
@[simp] theorem State.latch_loadCount (s : State) (w : Int) : (s.latch w).loadCount = s.loadCount := rfl
@[simp] theorem State.latch_stream (s : State) (w : Int) : (s.latch w).stream = s.stream := rfl
@[simp] theorem State.latch_streamEnded (s : State) (w : Int) : (s.latch w).streamEnded = s.streamEnded := rfl
@[simp] theorem State.latch_inPos (s : State) (w : Int) : (s.latch w).inPos = s.inPos := rfl
@[simp] theorem State.latch_out (s : State) (w : Int) : (s.latch w).out = s.out := rfl

@[simp] theorem State.loadOk_mem (s : State) : s.loadOk.mem = s.mem := rfl
@[simp] theorem State.loadOk_acc (s : State) : s.loadOk.acc = s.acc := rfl
@[simp] theorem State.loadOk_ic (s : State) : s.loadOk.ic = s.ic := rfl
@[simp] theorem State.loadOk_ir (s : State) : s.loadOk.ir = s.ir := rfl
@[simp] theorem State.loadOk_opc (s : State) : s.loadOk.opc = s.opc := rfl
@[simp] theorem State.loadOk_opd (s : State) : s.loadOk.opd = s.opd := rfl
@[simp] theorem State.loadOk_phase (s : State) : s.loadOk.phase = .loaded := rfl
@[simp] theorem State.loadOk_loadCount (s : State) : s.loadOk.loadCount = s.loadCount := rfl
@[simp] theorem State.loadOk_stream (s : State) : s.loadOk.stream = s.stream := rfl
@[simp] theorem State.loadOk_streamEnded (s : State) : s.loadOk.streamEnded = s.streamEnded := rfl
@[simp] theorem State.loadOk_inPos (s : State) : s.loadOk.inPos = s.inPos := rfl
@[simp] theorem State.loadOk_out (s : State) : s.loadOk.out = s.out := rfl

@[simp] theorem State.loadFail_mem (s : State) (r : LoadFailure) : (s.loadFail r).mem = s.mem := rfl
@[simp] theorem State.loadFail_acc (s : State) (r : LoadFailure) : (s.loadFail r).acc = s.acc := rfl
@[simp] theorem State.loadFail_ic (s : State) (r : LoadFailure) : (s.loadFail r).ic = s.ic := rfl
@[simp] theorem State.loadFail_ir (s : State) (r : LoadFailure) : (s.loadFail r).ir = s.ir := rfl
@[simp] theorem State.loadFail_opc (s : State) (r : LoadFailure) : (s.loadFail r).opc = s.opc := rfl
@[simp] theorem State.loadFail_opd (s : State) (r : LoadFailure) : (s.loadFail r).opd = s.opd := rfl
@[simp] theorem State.loadFail_phase (s : State) (r : LoadFailure) : (s.loadFail r).phase = .loadFailed r := rfl
@[simp] theorem State.loadFail_loadCount (s : State) (r : LoadFailure) : (s.loadFail r).loadCount = s.loadCount := rfl
@[simp] theorem State.loadFail_stream (s : State) (r : LoadFailure) : (s.loadFail r).stream = s.stream := rfl
@[simp] theorem State.loadFail_streamEnded (s : State) (r : LoadFailure) : (s.loadFail r).streamEnded = s.streamEnded := rfl
@[simp] theorem State.loadFail_inPos (s : State) (r : LoadFailure) : (s.loadFail r).inPos = s.inPos := rfl
@[simp] theorem State.loadFail_out (s : State) (r : LoadFailure) : (s.loadFail r).out = s.out := rfl

@[simp] theorem State.countLoaded_mem (s : State) : s.countLoaded.mem = s.mem := rfl
@[simp] theorem State.countLoaded_acc (s : State) : s.countLoaded.acc = s.acc := rfl
@[simp] theorem State.countLoaded_ic (s : State) : s.countLoaded.ic = s.ic := rfl
@[simp] theorem State.countLoaded_ir (s : State) : s.countLoaded.ir = s.ir := rfl
@[simp] theorem State.countLoaded_opc (s : State) : s.countLoaded.opc = s.opc := rfl
@[simp] theorem State.countLoaded_opd (s : State) : s.countLoaded.opd = s.opd := rfl
@[simp] theorem State.countLoaded_phase (s : State) : s.countLoaded.phase = s.phase := rfl
@[simp] theorem State.countLoaded_loadCount (s : State) : s.countLoaded.loadCount = s.loadCount + 1 := rfl
@[simp] theorem State.countLoaded_stream (s : State) : s.countLoaded.stream = s.stream := rfl
@[simp] theorem State.countLoaded_streamEnded (s : State) : s.countLoaded.streamEnded = s.streamEnded := rfl
@[simp] theorem State.countLoaded_inPos (s : State) : s.countLoaded.inPos = s.inPos := rfl
@[simp] theorem State.countLoaded_out (s : State) : s.countLoaded.out = s.out := rfl

@[simp] theorem State.start_mem (s : State) : s.start.mem = s.mem := rfl
@[simp] theorem State.start_acc (s : State) : s.start.acc = s.acc := rfl
@[simp] theorem State.start_ic (s : State) : s.start.ic = Config.entryIc := rfl
@[simp] theorem State.start_ir (s : State) : s.start.ir = s.ir := rfl
@[simp] theorem State.start_opc (s : State) : s.start.opc = s.opc := rfl
@[simp] theorem State.start_opd (s : State) : s.start.opd = s.opd := rfl
@[simp] theorem State.start_phase (s : State) : s.start.phase = .run .running := rfl
@[simp] theorem State.start_loadCount (s : State) : s.start.loadCount = s.loadCount := rfl
@[simp] theorem State.start_stream (s : State) : s.start.stream = s.stream := rfl
@[simp] theorem State.start_streamEnded (s : State) : s.start.streamEnded = s.streamEnded := rfl
@[simp] theorem State.start_inPos (s : State) : s.start.inPos = s.inPos := rfl
@[simp] theorem State.start_out (s : State) : s.start.out = s.out := rfl

/-- The memory at construction has the canonical form. -/
theorem State.reset_mem_wf : State.reset.mem.wf = true := by decide

end Sys2Proof.Machine
end

