-- ==== Sys2Proof/Laws/Ops.lean ====
section
/-!
SUPPORT. One lemma, or one per outcome, for each shared operation: all it can do.
-/

namespace Sys2Proof.Machine

theorem addrValid_iff {a : Int} : addrValid a = true ↔ 0 ≤ a ∧ a < 100 := by
  rw [addrValid, Bool.and_eq_true, decide_eq_true_eq, decide_eq_true_eq]; rfl

theorem State.memRead_eq_some {s : State} {a : Int} {v : Int} :
    s.memRead a = some v ↔ addrValid a ∧ s.mem.get a.toNat = v := by
  unfold State.memRead
  split
  · next h => simp [h]
  · next h => simp [h]

theorem State.memRead_of_valid (s : State) {a : Int} (h : addrValid a) : s.memRead a = some (s.mem.get a.toNat) :=
  if_pos h

theorem State.memRead_of_invalid (s : State) {a : Int} (h : ¬ addrValid a) : s.memRead a = none := if_neg h

theorem State.memWrite_eq_some {s t : State} {a : Int} {v : Int} :
    s.memWrite a v = some t ↔ addrValid a ∧ t = s.setMem (s.mem.set a.toNat v) := by
  unfold State.memWrite
  split
  · next h => simp [h, eq_comm]
  · next h => simp [h]

/-- The read of one unit after a write of one: the address written reads as written, every other as before. -/
theorem State.memRead_setMem_set (s : State) {a : Int} (v : Int) (b : Int) (ha : addrValid a) :
    (s.setMem (s.mem.set a.toNat v)).memRead b = if b = a then some v else s.memRead b := by
  by_cases hb : addrValid b
  · rw [State.memRead_of_valid _ hb, State.memRead_of_valid _ hb, State.setMem_mem, Memory.get_set]
    have : b.toNat = a.toNat ↔ b = a := by rw [addrValid_iff] at *; omega
    simp only [this]; split <;> rfl
  · rw [State.memRead_of_invalid _ hb, State.memRead_of_invalid _ hb, if_neg]
    rintro rfl; exact hb ha

theorem withOperand_eq (s : State) {a : Int} (go : Int → Result) (h : addrValid a) :
    withOperand s a go = go (s.mem.get a.toNat) := by
  simp [withOperand, State.memRead_of_valid s h]

theorem withOperand_eq_next {s t : State} {a : Int} {go : Int → Result} :
    withOperand s a go = .next t ↔ addrValid a ∧ go (s.mem.get a.toNat) = .next t := by
  by_cases h : addrValid a
  · simp [withOperand_eq s go h, h]
  · simp only [withOperand, State.memRead_of_invalid s h]; simp [h]

theorem storeOperand_eq (s : State) {a : Int} (v : Int) (go : State → Result) (h : addrValid a) :
    storeOperand s a v go = go (s.setMem (s.mem.set a.toNat v)) := by
  simp only [storeOperand, State.memWrite, if_pos h]

theorem storeOperand_eq_next {s t : State} {a : Int} {v : Int} {go : State → Result} :
    storeOperand s a v go = .next t ↔ addrValid a ∧ go (s.setMem (s.mem.set a.toNat v)) = .next t := by
  by_cases h : addrValid a
  · simp [storeOperand_eq s v go h, h]
  · simp only [storeOperand, State.memWrite, if_neg h]; simp [h]

theorem State.inNext_eq_value {s : State} {v : Int} : s.inNext = .value v ↔ s.stream[s.inPos]? = some v := by
  unfold State.inNext
  split
  · simp_all
  · split <;> simp_all

theorem State.inNext_eq_pending {s : State} :
    s.inNext = .pending ↔ s.stream[s.inPos]? = none ∧ s.streamEnded = false := by
  unfold State.inNext
  split
  · simp_all
  · split <;> simp_all

theorem State.inNext_eq_endOfStream {s : State} :
    s.inNext = .endOfStream ↔ s.stream[s.inPos]? = none ∧ s.streamEnded = true := by
  unfold State.inNext
  split
  · simp_all
  · split <;> simp_all

/-- The updates before a request leave what IN has. -/
@[simp] theorem State.inNext_latch (s : State) (w : Int) : (s.latch w).inNext = s.inNext := rfl

theorem overflowDetect_eq_none {r : Int} : overflowDetect r = none ↔ inWordRange r := by
  have h1 := Config.wordMin_val
  have h2 := Config.wordMax_val
  rw [inWordRange_iff, overflowDetect]
  split
  · simp; omega
  · split
    · simp; omega
    · simp; omega

theorem rangeCommit_of_word (s : State) {r : Int} (h : inWordRange r) : rangeCommit s r = .next (s.setAcc r).advance := by
  simp [rangeCommit, overflowDetect_eq_none.2 h, complete]

theorem rangeCommit_of_low (s : State) {r : Int} (h : r < Config.wordMin) :
    rangeCommit s r = .next (s.raiseAbend .underflow) := by
  simp only [rangeCommit, overflowDetect, if_pos h, abend]

theorem rangeCommit_of_high (s : State) {r : Int} (h : Config.wordMax < r) :
    rangeCommit s r = .next (s.raiseAbend .overflow) := by
  have h' : ¬ r < Config.wordMin := by simp only [Config.wordMin_val, Config.wordMax_val] at *; omega
  simp only [rangeCommit, overflowDetect, if_neg h', gt_iff_lt, if_pos h, abend]

/-- R141: the commit, or one of the two ABENDs. -/
theorem rangeCommit_eq_next {s t : State} {r : Int} (h : rangeCommit s r = .next t) :
    (inWordRange r ∧ t = (s.setAcc r).advance) ∨ (r < Config.wordMin ∧ t = s.raiseAbend .underflow) ∨
      (Config.wordMax < r ∧ t = s.raiseAbend .overflow) := by
  by_cases h1 : r < Config.wordMin
  · rw [rangeCommit_of_low s h1] at h; cases h; exact .inr (.inl ⟨h1, rfl⟩)
  · by_cases h2 : Config.wordMax < r
    · rw [rangeCommit_of_high s h2] at h; cases h; exact .inr (.inr ⟨h2, rfl⟩)
    · have : inWordRange r := by
        rw [inWordRange_iff]; simp only [Config.wordMin_val, Config.wordMax_val] at *; omega
      rw [rangeCommit_of_word s this] at h; cases h; exact .inl ⟨this, rfl⟩

theorem accIsZero_iff {s : State} : accIsZero s = true ↔ s.acc = 0 := by simp [accIsZero]

theorem accIsNegative_iff {s : State} : accIsNegative s = true ↔ s.acc < 0 := by simp [accIsNegative]

theorem branchIf_eq_next {s t : State} {c : Bool} {a : Int} :
    branchIf s c a = .next t ↔ t = s.setIc (if c then a else s.ic + 1) := by
  cases c <;> simp [branchIf, eq_comm]

end Sys2Proof.Machine
end

