-- ==== Sys2Proof/Laws/Exec.lean ====
section
/-!
SUPPORT. What each meaning can do, said once: if it answers `next t`, then one of these cases holds.
-/

namespace Sys2Proof.Machine

theorem execRead_eq_next {a : Int} {s t : State} (h : execRead a s = .next t) :
    (s.inNext = .pending ∧ t = s) ∨
    ∃ v, s.inNext = .value v ∧
      ((inWordRange v ∧ addrValid a ∧
          t = ((s.inTake.setMem (s.mem.set a.toNat v)).emit (.echo v)).advance) ∨
        (¬ inWordRange v ∧ t = s.inTake.raiseAbend .illegalInput)) := by
  unfold execRead at h
  split at h
  · next v hv =>
    refine .inr ⟨v, hv, ?_⟩
    unfold readValue at h
    split at h
    · next hw =>
      obtain ⟨ha, h⟩ := storeOperand_eq_next.1 h
      cases h; exact .inl ⟨hw, ha, rfl⟩
    · next hw => cases h; exact .inr ⟨hw, rfl⟩
  · next hp => cases h; exact .inl ⟨hp, rfl⟩
  · cases h

theorem execWrite_eq_next {a : Int} {s t : State} (h : execWrite a s = .next t) :
    addrValid a ∧ t = (s.emit (.write (s.mem.get a.toNat))).advance := by
  obtain ⟨ha, h⟩ := withOperand_eq_next.1 h
  cases h; exact ⟨ha, rfl⟩

theorem execLoad_eq_next {a : Int} {s t : State} (h : execLoad a s = .next t) :
    addrValid a ∧ t = (s.setAcc (s.mem.get a.toNat)).advance := by
  obtain ⟨ha, h⟩ := withOperand_eq_next.1 h
  cases h; exact ⟨ha, rfl⟩

theorem execStore_eq_next {a : Int} {s t : State} (h : execStore a s = .next t) :
    addrValid a ∧ t = (s.setMem (s.mem.set a.toNat s.acc)).advance := by
  obtain ⟨ha, h⟩ := storeOperand_eq_next.1 h
  cases h; exact ⟨ha, rfl⟩

theorem execDivide_eq_next {a : Int} {s t : State} (h : execDivide a s = .next t) :
    addrValid a ∧
      ((s.mem.get a.toNat = 0 ∧ t = s.raiseAbend .divisionByZero) ∨
        (s.mem.get a.toNat ≠ 0 ∧ t = (s.setAcc (tdiv s.acc (s.mem.get a.toNat))).advance)) := by
  obtain ⟨ha, h⟩ := withOperand_eq_next.1 h
  refine ⟨ha, ?_⟩
  split at h
  · next h0 => cases h; exact .inl ⟨h0, rfl⟩
  · next h0 => cases h; exact .inr ⟨h0, rfl⟩

/-- The exact result of the three range-checked operations (R142 to R144); none for the other instructions. -/
def exactResult (i : Instr) (acc v : Int) : Option Int :=
  match i with
  | .add _ => some (acc + v)
  | .subtract _ => some (acc - v)
  | .multiply _ => some (acc * v)
  | _ => none

/-- ADD, SUBTRACT and MULTIPLY are one rule over their exact results. -/
theorem exec_of_exactResult {i : Instr} {s : State} {r : Int} (ha : addrValid i.operand)
    (hr : exactResult i s.acc (s.mem.get i.operand.toNat) = some r) : exec i s = rangeCommit s r := by
  cases i <;> simp only [exactResult, Option.some.injEq, reduceCtorEq] at hr <;> subst hr <;>
    exact withOperand_eq s _ ha

theorem exec_arith_eq_next {i : Instr} {s t : State} (hi : (exactResult i 0 0).isSome) (h : exec i s = .next t) :
    ∃ r, exactResult i s.acc (s.mem.get i.operand.toNat) = some r ∧ addrValid i.operand ∧
      ((inWordRange r ∧ t = (s.setAcc r).advance) ∨ (r < Config.wordMin ∧ t = s.raiseAbend .underflow) ∨
        (Config.wordMax < r ∧ t = s.raiseAbend .overflow)) := by
  cases i <;> simp only [exactResult, Option.isSome_some, Option.isSome_none, Bool.false_eq_true] at hi <;>
    · obtain ⟨ha, h⟩ := withOperand_eq_next.1 h
      exact ⟨_, rfl, ha, rangeCommit_eq_next h⟩

/-- No instruction writes the fetch's registers (10_state.md R26 to R28). -/
theorem exec_keeps_fetch_registers {i : Instr} {s t : State} (h : exec i s = .next t) :
    t.ir = s.ir ∧ t.opc = s.opc ∧ t.opd = s.opd := by
  cases i
  case read => rcases execRead_eq_next h with ⟨_, rfl⟩ | ⟨_, _, ⟨_, _, rfl⟩ | ⟨_, rfl⟩⟩ <;> simp
  case write => obtain ⟨_, rfl⟩ := execWrite_eq_next h; simp
  case store => obtain ⟨_, rfl⟩ := execStore_eq_next h; simp
  case load => obtain ⟨_, rfl⟩ := execLoad_eq_next h; simp
  case divide => obtain ⟨_, ⟨_, rfl⟩ | ⟨_, rfl⟩⟩ := execDivide_eq_next h <;> simp
  case branch => cases h; simp
  case branchZero => cases branchIf_eq_next.1 h; simp
  case branchNeg => cases branchIf_eq_next.1 h; simp
  case halt => cases h; simp
  all_goals obtain ⟨_, _, _, ⟨_, rfl⟩ | ⟨_, rfl⟩ | ⟨_, rfl⟩⟩ := exec_arith_eq_next (by rfl) h <;> simp

/-- The memory after an instruction: as before, or with the operand's slot written by READ or STORE. -/
theorem exec_mem_cases {i : Instr} {s t : State} (h : exec i s = .next t) :
    t.mem = s.mem ∨
      ∃ v, (i = .read i.operand ∨ i = .store i.operand) ∧ addrValid i.operand ∧
        t.mem = s.mem.set i.operand.toNat v := by
  cases i
  case read =>
    rcases execRead_eq_next h with ⟨_, rfl⟩ | ⟨v, _, ⟨_, ha, rfl⟩ | ⟨_, rfl⟩⟩
    · exact .inl rfl
    · exact .inr ⟨v, .inl rfl, ha, rfl⟩
    · exact .inl rfl
  case store => obtain ⟨ha, rfl⟩ := execStore_eq_next h; exact .inr ⟨_, .inr rfl, ha, rfl⟩
  case write => obtain ⟨_, rfl⟩ := execWrite_eq_next h; simp
  case load => obtain ⟨_, rfl⟩ := execLoad_eq_next h; simp
  case divide => obtain ⟨_, ⟨_, rfl⟩ | ⟨_, rfl⟩⟩ := execDivide_eq_next h <;> simp
  case branch => cases h; simp
  case branchZero => cases branchIf_eq_next.1 h; simp
  case branchNeg => cases branchIf_eq_next.1 h; simp
  case halt => cases h; simp
  all_goals obtain ⟨_, _, _, ⟨_, rfl⟩ | ⟨_, rfl⟩ | ⟨_, rfl⟩⟩ := exec_arith_eq_next (by rfl) h <;> simp

end Sys2Proof.Machine
end

