-- ==== Sys2Proof/Laws/PerInstr.lean ====
section
/-!
SUPPORT. A family of per-instruction facts: the encoding of a well-formed instruction is a Word that is not negative
(30_encoding.md R76, R78), one lemma per constructor.
-/

namespace Sys2Proof.Laws.EncodedIsWord

/-- A well-formed instruction is written as a Word of its opcode's hundred. -/
def Statement (i : Instr) : Prop :=
  i.wellFormed → inWordRange (encode i) ∧ 0 ≤ encode i ∧ encode i / 100 = opcodeNumber i.opcode

theorem of_bounds (i : Instr) : Statement i := by
  intro h
  have := opcodeNumber_bounds i.opcode
  rw [Instr.wellFormed_iff] at h
  rw [inWordRange_iff, encode, Config.opcDivisor_val]
  omega

theorem read (opd : Int) : Statement (.read opd) := of_bounds _
theorem write (opd : Int) : Statement (.write opd) := of_bounds _
theorem store (opd : Int) : Statement (.store opd) := of_bounds _
theorem load (opd : Int) : Statement (.load opd) := of_bounds _
theorem add (opd : Int) : Statement (.add opd) := of_bounds _
theorem subtract (opd : Int) : Statement (.subtract opd) := of_bounds _
theorem multiply (opd : Int) : Statement (.multiply opd) := of_bounds _
theorem divide (opd : Int) : Statement (.divide opd) := of_bounds _
theorem branch (opd : Int) : Statement (.branch opd) := of_bounds _
theorem branchZero (opd : Int) : Statement (.branchZero opd) := of_bounds _
theorem branchNeg (opd : Int) : Statement (.branchNeg opd) := of_bounds _
theorem halt (opd : Int) : Statement (.halt opd) := of_bounds _

end Sys2Proof.Laws.EncodedIsWord
end

