-- ==== Sys2Proof/Laws/Step.lean ====
section
/-!
SUPPORT. What a step can do, said once, phase by phase.
-/

namespace Sys2Proof.Machine

theorem step_of_running {s : State} (h : s.phase = .run .running) : step s = engineStep s := by simp [step, h]
theorem step_of_loading {s : State} (h : s.phase = .loading) : step s = loadStep s := by simp [step, h]
theorem step_of_loaded {s : State} (h : s.phase = .loaded) : step s = .next s.start := by simp [step, h]

/-- The phases that have a step at all. -/
theorem step_eq_next {s t : State} (h : step s = .next t) :
    (s.phase = .loading ∧ loadStep s = .next t) ∨ (s.phase = .loaded ∧ t = s.start) ∨
      (s.phase = .run .running ∧ engineStep s = .next t) := by
  unfold step at h
  split at h
  · next hp => exact .inl ⟨hp, h⟩
  · next hp => cases h; exact .inr (.inl ⟨hp, rfl⟩)
  · cases h
  · next hp => exact .inr (.inr ⟨hp, h⟩)
  · cases h
  · cases h

theorem engineStep_of_pcInvalid {s : State} (h : ¬ s.pcValid) :
    engineStep s = .next (s.raiseAbend .addressabilityError) := if_neg h

/-- Past the PC check the step runs the word that the slot at `ic` holds. -/
theorem engineStep_of_pcValid {s : State} (h : s.pcValid) : engineStep s = runWord s (s.mem.get s.ic.toNat) := by
  simp only [engineStep, if_pos h, State.memRead_of_valid s h]

theorem runWord_eq_next {s t : State} {w : Int} (h : runWord s w = .next t) :
    (decode w = .invalidOpcode ∧ t = (s.latch w).raiseAbend .invalidOpcode) ∨
    ∃ i, decode w = .instr i ∧
      ((s.heldBy i = true ∧ t = s) ∨ (s.heldBy i = false ∧ exec i (s.latch w) = .next t)) := by
  unfold runWord at h
  split at h
  · next i hi =>
    refine .inr ⟨i, hi, ?_⟩
    split at h
    · next hh => cases h; exact .inl ⟨hh, rfl⟩
    · next hh => exact .inr ⟨by simpa using hh, h⟩
  · next hi => cases h; exact .inl ⟨hi, rfl⟩

/-- The engine's step: a failed PC check, an invalid word, a held READ, or an instruction. -/
theorem engineStep_eq_next {s t : State} (h : engineStep s = .next t) :
    (¬ s.pcValid ∧ t = s.raiseAbend .addressabilityError) ∨
    (s.pcValid ∧ decode (s.mem.get s.ic.toNat) = .invalidOpcode ∧
      t = (s.latch (s.mem.get s.ic.toNat)).raiseAbend .invalidOpcode) ∨
    ∃ i, s.pcValid ∧ decode (s.mem.get s.ic.toNat) = .instr i ∧
      ((s.heldBy i = true ∧ t = s) ∨
        (s.heldBy i = false ∧ exec i (s.latch (s.mem.get s.ic.toNat)) = .next t)) := by
  by_cases hp : s.pcValid
  · rw [engineStep_of_pcValid hp] at h
    rcases runWord_eq_next h with ⟨h1, h2⟩ | ⟨i, h1, h2⟩
    · exact .inr (.inl ⟨hp, h1, h2⟩)
    · exact .inr (.inr ⟨i, hp, h1, h2⟩)
  · rw [engineStep_of_pcInvalid hp] at h; cases h; exact .inl ⟨hp, rfl⟩

/-- Only a READ is ever held (R112). -/
theorem heldBy_eq_true {s : State} {i : Instr} (h : s.heldBy i = true) : (∃ a, i = .read a) ∧ s.inNext = .pending := by
  cases i <;> simp_all [State.heldBy]

/-- The engine's step, with the fetched word named. -/
theorem step_running_eq_next {s t : State} (hp : s.phase = .run .running) (h : step s = .next t) :
    (¬ s.pcValid ∧ t = s.raiseAbend .addressabilityError) ∨
    ∃ w, s.memRead s.ic = some w ∧
      ((decode w = .invalidOpcode ∧ t = (s.latch w).raiseAbend .invalidOpcode) ∨
       ∃ i, decode w = .instr i ∧
        ((s.heldBy i = true ∧ t = s) ∨ (s.heldBy i = false ∧ exec i (s.latch w) = .next t))) := by
  rw [step_of_running hp] at h
  rcases engineStep_eq_next h with ⟨h1, h2⟩ | ⟨h1, h2, h3⟩ | ⟨i, h1, h2, h3⟩
  · exact .inl ⟨h1, h2⟩
  · exact .inr ⟨_, State.memRead_of_valid s h1, .inl ⟨h2, h3⟩⟩
  · exact .inr ⟨_, State.memRead_of_valid s h1, .inr ⟨i, h2, h3⟩⟩

/-- A run of the host's machine takes its steps one by one. -/
theorem core_run_succ {s t : State} (k : Nat) (h : step s = .next t) :
    Sys2Proof.core.run (k + 1) s = Sys2Proof.core.run k t := by
  have run_succ (M : Host.Core) (s t : M.State) (h : M.step s = .next t) : M.run (k + 1) s = M.run k t := by
    simp [Host.Core.run, h]
  exact run_succ Sys2Proof.core s t h

/-- The loader's step (R234), case by case. -/
theorem loadStep_eq_next {s t : State} (h : loadStep s = .next t) :
    (s.inNext = .pending ∧ t = s) ∨
    (s.inNext = .endOfStream ∧ t = s.loadAtEnd Config.loadEofPolicy Config.loadEofReport) ∨
    ∃ v, s.inNext = .value v ∧
      ((v = Config.loadTerminator ∧ t = s.inTake.loadOk) ∨
       (v ≠ Config.loadTerminator ∧ ¬ inWordRange v ∧
          t = (s.inTake.loadFail .invalidWord).emit (.abend .invalidWord)) ∨
       (inWordRange v ∧ s.loadCount = Config.loadCapacity ∧
          t = (s.inTake.loadFail .programTooLarge).emit (.abend .programTooLarge)) ∨
       (inWordRange v ∧ s.loadCount ≠ Config.loadCapacity ∧ addrValid s.loadCount ∧
          t = (s.inTake.setMem (s.mem.set s.loadCount v)).countLoaded)) := by
  unfold loadStep at h
  split at h
  · next v hv =>
    refine .inr (.inr ⟨v, hv, ?_⟩)
    unfold loadValue at h
    split at h
    · next ht => cases h; exact .inl ⟨ht, rfl⟩
    · next ht =>
      split at h
      · next hw =>
        split at h
        · next hc => cases h; exact .inr (.inr (.inl ⟨hw, hc, rfl⟩))
        · next hc =>
          split at h
          · next u hu =>
            obtain ⟨ha, rfl⟩ := State.memWrite_eq_some.1 hu
            cases h
            exact .inr (.inr (.inr ⟨hw, hc, ha, by simp⟩))
          · cases h
      · next hw => cases h; exact .inr (.inl ⟨ht, hw, rfl⟩)
  · next hp => cases h; exact .inl ⟨hp, rfl⟩
  · next he => cases h; exact .inr (.inl ⟨he, rfl⟩)

theorem State.loadAtEnd_cases (s : State) (p : LoadEofPolicy) (k : Option AbendKind) :
    (p = .accept ∧ s.loadAtEnd p k = s.loadOk) ∨
    (p = .reject ∧ ((k = none ∧ s.loadAtEnd p k = s.loadFail .endOfStream) ∨
      ∃ j, k = some j ∧ s.loadAtEnd p k = (s.loadFail .endOfStream).emit (.abend j))) := by
  cases p <;> cases k <;> simp [State.loadAtEnd]

end Sys2Proof.Machine
end

