-- ==== Sys2Proof/Tests/Slice0.lean ====
section
/-!
SUPPORT. Tests of the model, each a named theorem with its expected result taken from the spec (spec/95_test_vectors.md
where a section is named), and for each statement with hypotheses a witness that meets them.
-/

namespace Sys2Proof.Tests

open Sys2Proof.Machine

/-- A running machine with a few slots written, for tests. -/
def runAt (ic : Int) (cells : Memory) (acc : Int := 0) (ins : List Int := []) : State :=
  { State.reset with phase := .run .running, ic := ic, mem := cells, acc := acc, stream := ins }

/-- A machine in the load phase, for tests. -/
def loadAt (count : Nat) (ins : List Int) : State := { State.reset with loadCount := count, stream := ins }

/-- The next state of a result, if it is one. -/
def nextOf : Result → Option State
  | .next t => some t
  | .fault _ => none
  | .refused _ => none

/-- The fault of a result, if it is one. -/
def faultOf : Result → Option Fault
  | .next _ => none
  | .fault f => some f
  | .refused _ => none

/-- What most tests look at: run state, accumulator, counter, events. -/
def look (s : State) : Option (Phase × Int × Int × List Event) :=
  (nextOf (step s)).map fun t => (t.phase, t.acc, t.ic, t.out)

/-- One slot after a step. -/
def slotAfter (s : State) (a : Int) : Option Int := (nextOf (step s)).bind fun t => t.memRead a

/-! ### Well-formedness: the operand's two bounds -/

theorem test_operand_below_range_is_ill_formed : (Instr.load (-1)).wellFormed = false := by decide
theorem test_operand_above_range_is_ill_formed : (Instr.halt 100).wellFormed = false := by decide
theorem test_operand_bounds_are_well_formed :
    (Instr.read 0).wellFormed = true ∧ (Instr.branch 99).wellFormed = true := by decide

/-! ### Decoding: section 2.1, and one word for each constructor -/

theorem test_decode_read : decode 1109 = .instr (.read 9) := by decide
theorem test_decode_write : decode 1299 = .instr (.write 99) := by decide
theorem test_decode_store : decode 2100 = .instr (.store 0) := by decide
theorem test_decode_load : decode 2299 = .instr (.load 99) := by decide
theorem test_decode_add : decode 3110 = .instr (.add 10) := by decide
theorem test_decode_subtract : decode 3211 = .instr (.subtract 11) := by decide
theorem test_decode_multiply : decode 3303 = .instr (.multiply 3) := by decide
theorem test_decode_divide : decode 3499 = .instr (.divide 99) := by decide
theorem test_decode_branch : decode 4120 = .instr (.branch 20) := by decide
theorem test_decode_branchZero : decode 4207 = .instr (.branchZero 7) := by decide
theorem test_decode_branchNeg : decode 4300 = .instr (.branchNeg 0) := by decide
theorem test_decode_halt : decode 4457 = .instr (.halt 57) := by decide
theorem test_decode_invalid :
    ∀ w ∈ [1099, 1300, 3500, 4500, 0, 99, 7777, 9999, 5012, -1, -4105, -1109, -9999], decode w = .invalidOpcode := by
  decide
theorem test_table_has_twelve_rows :
    Opcode.all.length = Config.numInstructions ∧ (Opcode.all.map opcodeNumber).Nodup := by decide
theorem test_negative_word_fields : opcField (-4105) = -41 ∧ opdField (-4105) = -5 := by decide
theorem test_encode_is_the_hundreds : encode (.subtract 11) = 3211 ∧ encode (.halt 99) = 4499 := by decide
theorem test_table_word : decodeTableWord 16 3110 = some (.add 10) ∧ decodeTableWord 16 7777 = none := by decide
theorem test_fetch_word_runs_after_reset :
    (nextOf (step (State.reset.withFetchWord 16 2200))).map (fun t => (t.acc, t.ic)) = some (2200, 1) := by decide

/-! ### The engine: section 2.2 -/

theorem test_pc_check :
    (nextOf (step { runAt 100 [] with ir := 2200 })).map (fun t => (t.phase, t.ic, t.ir)) =
      some (.run (.abended .addressabilityError), 100, 2200) := by decide
theorem test_invalid_word :
    (nextOf (step (runAt 3 [(3, 5012)]))).map (fun t => (t.phase, t.ic, t.ir, t.opc, t.opd)) =
      some (.run (.abended .invalidOpcode), 3, 5012, 50, 12) := by decide
theorem test_halted_has_no_step : faultOf (step { runAt 0 [] with phase := .run .halted }) = some .runOver := by decide

/-! ### Instructions: sections 2.3 to 2.6 -/

theorem test_read : look (runAt 0 [(0, 1109)] 0 [-9999]) = some (.run .running, 0, 1, [.echo (-9999)]) ∧
    slotAfter (runAt 0 [(0, 1109)] 0 [-9999]) 9 = some (-9999) := by decide
theorem test_read_illegal :
    look (runAt 0 [(0, 1109)] 0 [10000]) = some (.run (.abended .illegalInput), 0, 0, [.abend .illegalInput]) := by
  decide
theorem test_write : look (runAt 4 [(4, 1220), (20, -42)]) = some (.run .running, 0, 5, [.write (-42)]) := by decide
theorem test_write_fill_word : look (runAt 4 [(4, 1230)]) = some (.run .running, 0, 5, [.write 7777]) := by decide
theorem test_load : look (runAt 2 [(2, 2205), (5, -1234)]) = some (.run .running, -1234, 3, []) := by decide
theorem test_load_of_itself_at_the_end : look (runAt 99 [(99, 2299)]) = some (.run .running, 2299, 100, []) := by decide
theorem test_store_on_itself : look (runAt 3 [(3, 2103)] 4400) = some (.run .running, 4400, 4, []) ∧
    slotAfter (runAt 3 [(3, 2103)] 4400) 3 = some 4400 := by decide
theorem test_store_of_the_fill_word :
    (nextOf (step (runAt 3 [(3, 2105), (5, 1)] 7777))).map (fun t => t.mem) = some [(3, 2105)] := by decide
theorem test_add : look (runAt 0 [(0, 3150), (50, 4999)] 5000) = some (.run .running, 9999, 1, []) := by decide
theorem test_add_overflow : look (runAt 0 [(0, 3150), (50, 1)] 9999) =
    some (.run (.abended .overflow), 9999, 0, [.abend .overflow]) := by decide
theorem test_subtract : look (runAt 0 [(0, 3250), (50, 8)] 5) = some (.run .running, -3, 1, []) := by decide
theorem test_subtract_underflow : look (runAt 0 [(0, 3250), (50, 1)] (-9999)) =
    some (.run (.abended .underflow), -9999, 0, [.abend .underflow]) := by decide
theorem test_multiply : look (runAt 0 [(0, 3350), (50, 101)] (-99)) = some (.run .running, -9999, 1, []) := by decide
theorem test_multiply_underflow : look (runAt 0 [(0, 3350), (50, -9999)] 9999) =
    some (.run (.abended .underflow), 9999, 0, [.abend .underflow]) := by decide
theorem test_divide_truncates : look (runAt 0 [(0, 3450), (50, 2)] (-7)) = some (.run .running, -3, 1, []) := by decide
theorem test_divide_by_zero : look (runAt 0 [(0, 3450), (50, 0)] 0) =
    some (.run (.abended .divisionByZero), 0, 0, [.abend .divisionByZero]) := by decide
theorem test_branch : look (runAt 5 [(5, 4120)]) = some (.run .running, 0, 20, []) := by decide
theorem test_branchZero : look (runAt 1 [(1, 4207)] 0) = some (.run .running, 0, 7, []) ∧
    look (runAt 1 [(1, 4207)] (-1)) = some (.run .running, -1, 2, []) := by decide
theorem test_branchNeg : look (runAt 2 [(2, 4305)] (-1)) = some (.run .running, -1, 5, []) ∧
    look (runAt 2 [(2, 4305)] 0) = some (.run .running, 0, 3, []) := by decide
theorem test_halt : look (runAt 6 [(6, 4457)] 8) = some (.run .halted, 8, 6, [.halted]) := by decide

/-! ### The loader, section 2.7, and the ports -/

theorem test_load_terminator :
    (nextOf (step (loadAt 2 [-99999]))).map (fun t => (t.phase, t.loadCount)) = some (.loaded, 2) := by decide
theorem test_load_range_before_capacity :
    (nextOf (step (loadAt 100 [20000]))).map (fun t => (t.phase, t.out)) =
      some (.loadFailed .invalidWord, [.abend .invalidWord]) := by decide
theorem test_load_too_large :
    (nextOf (step (loadAt 100 [1]))).map (fun t => (t.phase, t.out)) =
      some (.loadFailed .programTooLarge, [.abend .programTooLarge]) := by decide
theorem test_reset_waits_for_the_load_stream : nextOf (step State.reset) = some State.reset := by decide
theorem test_status_after_overflow :
    (nextOf (step (runAt 0 [(0, 3150), (50, 1)] 9999))).bind State.status = some (2, 5) := by decide
theorem test_no_dump_during_a_run : (runAt 0 []).dump = none := by decide
theorem test_render : renderWord (-42) = ['-', '0', '0', '4', '2'] ∧ renderWord 0 = ['+', '0', '0', '0', '0'] := by
  decide

/-! ### Witnesses: concrete states and operands that meet the hypotheses of each statement -/

/-- READ 09 at 0 with one value to come, for the witnesses. -/
def readState (ins : List Int) : State := runAt 0 [(0, 1109)] 0 ins

theorem witness_DecodeOfEncodeIsTheInstruction : (Instr.store 99).wellFormed = true := by decide
theorem witness_EncodeOfDecodeIsTheWord : decode 4499 = .instr (.halt 99) := by decide
theorem witness_InvalidWordsAreTheListedOnes :
    (decode 1099 = .invalidOpcode ∧ decode 1300 = .invalidOpcode ∧ decode 2300 = .invalidOpcode ∧
      decode 3500 = .invalidOpcode ∧ decode 4500 = .invalidOpcode ∧ decode (-1) = .invalidOpcode) ∧
    decode 1100 ≠ .invalidOpcode ∧ decode 4499 ≠ .invalidOpcode ∧ (-9999 : Int) ≤ 1100 ∧ (4499 : Int) ≤ 9999 := by decide
theorem witness_StepRunsTheDecodedInstruction :
    (runAt 99 [(99, 3110)]).phase = .run .running ∧ (runAt 99 [(99, 3110)]).memRead 99 = some 3110 ∧
      decode 3110 = .instr (.add 10) ∧ (runAt 99 [(99, 3110)]).heldBy (.add 10) = false := by decide
theorem witness_EveryFetchedWordIsLatched :
    (runAt 0 [(0, -4105)]).phase = .run .running ∧ (runAt 0 [(0, -4105)]).memRead 0 = some (-4105) ∧
      (∀ a, decode (-4105) = .instr (.read a) → (runAt 0 [(0, -4105)]).inNext ≠ .pending) ∧
      ∃ t, step (runAt 0 [(0, -4105)]) = .next t :=
  ⟨by decide, by decide, fun a h => (by rw [show decode (-4105) = .invalidOpcode by decide] at h; cases h), _, rfl⟩
theorem witness_FailedPcCheckAbends :
    (runAt 100 []).phase = .run .running ∧ 99 < (runAt 100 []).ic ∧ (runAt (-1) []).phase = .run .running ∧
      (runAt (-1) []).ic < 0 := by decide
theorem witness_InvalidWordAbends :
    (runAt 0 []).phase = .run .running ∧ (runAt 0 []).memRead 0 = some 7777 ∧ decode 7777 = .invalidOpcode := by decide
theorem witness_AnEndedRunHasNoStep :
    State.phase { runAt 0 [] with phase := .run .halted } = .run .halted ∧
      ∃ k, State.phase { runAt 0 [] with phase := .run (.abended .overflow) } = .run (.abended k) := ⟨rfl, _, rfl⟩
theorem witness_WaitingReadChangesNothing :
    (readState []).phase = .run .running ∧ (readState []).memRead 0 = some 1109 ∧ decode 1109 = .instr (.read 9) ∧
      (readState []).inNext = .pending := by decide
theorem witness_AnArrivingValueWakesTheRead :
    (readState []).phase = .run .running ∧ (readState []).memRead 0 = some 1109 ∧ decode 1109 = .instr (.read 9) ∧
      (readState []).inNext = .pending ∧ (readState []).inPos ≤ (readState []).stream.length ∧
      (-9999 : Int) ≤ 9999 ∧ (9999 : Int) ≤ 9999 := by decide
theorem witness_ReadAtEndOfStreamIsStuck :
    (readState []).endInput.phase = .run .running ∧ (readState []).endInput.memRead 0 = some 1109 ∧
      decode 1109 = .instr (.read 9) ∧ (readState []).endInput.inNext = .endOfStream := by decide
theorem witness_ReadStoresAndEchoesTheNextWord :
    (0 : Int) ≤ 99 ∧ (99 : Int) ≤ 99 ∧ (readState [-9999]).stream[(readState [-9999]).inPos]? = some (-9999) ∧
      (-9999 : Int) ≤ -9999 ∧ (-9999 : Int) ≤ 9999 := by decide
theorem witness_ReadOfANonWordAbends :
    (readState [10000]).stream[(readState [10000]).inPos]? = some 10000 ∧ (9999 : Int) < 10000 ∧
      (readState [-10000]).stream[(readState [-10000]).inPos]? = some (-10000) ∧ (-10000 : Int) < -9999 := by decide
/-- The operand's two bounds, for the statements over every operand and every state. -/
theorem witness_operand_bounds : ((0 : Int) ≤ 0 ∧ (0 : Int) ≤ 99) ∧ (0 : Int) ≤ 99 ∧ (99 : Int) ≤ 99 := by decide
theorem witness_WriteEmitsTheOperandWord : (0 : Int) ≤ 99 ∧ (99 : Int) ≤ 99 := by decide
theorem witness_LoadCopiesTheOperandWord : (0 : Int) ≤ 0 ∧ (0 : Int) ≤ 99 := by decide
theorem witness_StoreCopiesTheAccumulator : (0 : Int) ≤ 99 ∧ (99 : Int) ≤ 99 := by decide
theorem witness_AddCommitsTheExactSumOrAbends :
    (runAt 0 [(99, 4999)] 5000).memRead 99 = some 4999 ∧ (5000 : Int) + 4999 ≤ 9999 ∧ (-9999 : Int) ≤ 5000 + 4999 ∧
      (runAt 0 [(0, 1)] 9999).memRead 0 = some 1 ∧ (9999 : Int) < 9999 + 1 ∧
      (runAt 0 [(0, -1)] (-9999)).memRead 0 = some (-1) ∧ (-9999 : Int) + -1 < -9999 := by decide
theorem witness_SubtractCommitsTheExactDifferenceOrAbends :
    (runAt 0 [(99, 9999)] 0).memRead 99 = some 9999 ∧ (-9999 : Int) ≤ 0 - 9999 ∧ (0 : Int) - 9999 ≤ 9999 ∧
      (runAt 0 [(0, -1)] 9999).memRead 0 = some (-1) ∧ (9999 : Int) < 9999 - -1 ∧
      (runAt 0 [(0, 1)] (-9999)).memRead 0 = some 1 ∧ (-9999 : Int) - 1 < -9999 := by decide
theorem witness_MultiplyCommitsTheExactProductOrAbends :
    (runAt 0 [(99, 101)] 99).memRead 99 = some 101 ∧ (-9999 : Int) ≤ 99 * 101 ∧ (99 : Int) * 101 ≤ 9999 ∧
      (runAt 0 [(0, 100)] 100).memRead 0 = some 100 ∧ (9999 : Int) < 100 * 100 ∧
      (runAt 0 [(0, 100)] (-100)).memRead 0 = some 100 ∧ (-100 : Int) * 100 < -9999 := by decide
theorem witness_DivideCommitsTheTruncatedQuotientOrAbends :
    (runAt 0 [(99, -1)] (-9999)).memRead 99 = some (-1) ∧ (-1 : Int) ≠ 0 ∧
      (runAt 0 [(0, 0)] 5).memRead 0 = some 0 := by decide
theorem witness_BranchJumps : (0 : Int) ≤ 99 ∧ (99 : Int) ≤ 99 := by decide
theorem witness_BranchZeroJumpsIffZero : (runAt 0 [] 0).acc = 0 ∧ (runAt 0 [] (-1)).acc ≠ 0 ∧ (0 : Int) ≤ 99 := by decide
theorem witness_BranchNegJumpsIffNegative : (runAt 0 [] (-1)).acc < 0 ∧ 0 ≤ (runAt 0 [] 0).acc ∧ (0 : Int) ≤ 99 := by
  decide
theorem witness_HaltEndsTheRun : (0 : Int) ≤ 99 ∧ (99 : Int) ≤ 99 := by decide

/-- BRANCHZERO 07 at 99: its not-taken path leaves the memory. -/
theorem witness_PcAfterEachInstruction :
    (runAt 99 [(99, 4207)] 1).phase = .run .running ∧ (runAt 99 [(99, 4207)] 1).memRead 99 = some 4207 ∧
      decode 4207 = .instr (.branchZero 7) ∧ (runAt 99 [(99, 4207)] 1).heldBy (.branchZero 7) = false ∧
      ∃ t, step (runAt 99 [(99, 4207)] 1) = .next t ∧ ∀ k, t.phase ≠ .run (.abended k) :=
  ⟨by decide, by decide, by decide, by decide, _, rfl, fun _ h => by cases h⟩
theorem witness_AbendsArePrecise :
    (readState [10000]).phase = .run .running ∧
      ∃ t, step (readState [10000]) = .next t ∧ t.phase = .run (.abended .illegalInput) := ⟨by decide, _, rfl, rfl⟩
theorem witness_EveryAbendHasItsCause :
    (runAt 0 [(0, 3450), (50, 0)]).phase = .run .running ∧
      ∃ t, step (runAt 0 [(0, 3450), (50, 0)]) = .next t ∧ t.phase = .run (.abended .divisionByZero) :=
  ⟨by decide, _, rfl, rfl⟩
theorem witness_RunStateMovesOnlyByHaltOrAbend :
    (∃ t, step (runAt 6 [(6, 4400)]) = .next t ∧ t.phase = .run .halted) ∧
    (∃ t, step (runAt 100 []) = .next t ∧ t.phase = .run (.abended .addressabilityError)) ∧
    ∃ t, step { State.reset with phase := .loaded } = .next t ∧ t.phase = .run .running :=
  ⟨⟨_, rfl, rfl⟩, ⟨_, rfl, rfl⟩, _, rfl, rfl⟩
theorem witness_OnlyLoadAndArithmeticWriteTheAccumulator :
    ∃ t, step (runAt 2 [(2, 2205), (5, -1234)]) = .next t ∧ t.acc ≠ (runAt 2 [(2, 2205), (5, -1234)]).acc :=
  ⟨_, rfl, by decide⟩
theorem witness_OnlyReadAndStoreWriteMemory :
    (runAt 3 [(3, 2199)] 4400).phase = .run .running ∧
      ∃ t, step (runAt 3 [(3, 2199)] 4400) = .next t ∧ t.memRead 99 ≠ (runAt 3 [(3, 2199)] 4400).memRead 99 :=
  ⟨by decide, _, rfl, by decide⟩
theorem witness_PortsMoveForwardOnly : ∃ t, step (readState [5]) = .next t := ⟨_, rfl⟩
theorem witness_UnreadInputDoesNotMatter :
    (readState [5]).inPos < (readState [5]).stream.length ∧ ∃ t, step (readState [5]) = .next t := ⟨by decide, _, rfl⟩
/-- STORE 04 at 3 of the word HALT 00: control goes to it next. -/
theorem witness_AStoredWordIsExecutedNext :
    (runAt 3 [(3, 2104)] 4400).phase = .run .running ∧ (runAt 3 [(3, 2104)] 4400).memRead 3 = some 2104 ∧
      decode 2104 = .instr (.store 4) ∧ decode 4400 = .instr (.halt 0) ∧
      ∃ t, step (runAt 3 [(3, 2104)] 4400) = .next t ∧ t.ic = 4 ∧ t.heldBy (.halt 0) = false :=
  ⟨by decide, by decide, by decide, by decide, _, rfl, rfl, rfl⟩
theorem witness_MemoriesThatReadAlikeAreEqual :
    Memory.wf [(3, 1), (99, -5)] = true ∧ Memory.wf [(99, 7777)] = false ∧ Memory.wf [(100, 1)] = false := by decide
theorem witness_EveryOtherStepIsEnabled :
    (readState [5]).phase = .run .running ∧
      ∀ w a, (readState [5]).memRead (readState [5]).ic = some w → decode w = .instr (.read a) →
        (readState [5]).inPos < (readState [5]).stream.length := ⟨by decide, fun _ _ _ _ => by decide⟩

/-- A state of the invariant at its bounds: `ic` 99, a slot at either end of the Word range. -/
def soundState : State := { runAt 99 [(0, -9999), (99, 3400)] 9999 [5] with ir := 2299, opc := 22, opd := 99 }

theorem soundState_Inv : soundState.Inv where
  memWf := by decide
  words := ⟨by decide, by decide, by decide⟩
  icRange := ⟨by decide, by decide⟩
  fields := ⟨by decide, by decide⟩
  phase := by decide
  counts := ⟨by decide, by decide⟩

theorem witness_NoStepAccessesABadAddress : soundState.Inv := soundState_Inv
theorem witness_DivideStaysInTheWordRange :
    soundState.holdsWords ∧ ∃ t, exec (.divide 0) soundState = .next t := ⟨soundState_Inv.words, _, rfl⟩
theorem witness_EveryStepKeepsTheInvariant : soundState.Inv ∧ ∃ t, step soundState = .next t := ⟨soundState_Inv, _, rfl⟩
theorem witness_EveryStepKeepsOutputAndRunStateInAgreement :
    soundState.outMatchesPhase ∧ ∃ t, step soundState = .next t :=
  ⟨show ∀ e ∈ soundState.out, e.isFinal = false by decide, _, rfl⟩
theorem witness_TheLoadLeavesTheRestFresh :
    (loadAt 0 [1]).unstartedIsFresh ∧ ∃ t, step (loadAt 0 [1]) = .next t :=
  ⟨⟨rfl, rfl, rfl, rfl, rfl, fun _ _ => rfl⟩, _, rfl⟩

theorem witness_TheLoaderTakesAValue :
    (loadAt 0 [-99999]).phase = .loading ∧ (loadAt 0 [-99999]).stream[(loadAt 0 [-99999]).inPos]? = some (-99999) ∧
      (loadAt 0 [10000]).stream[(loadAt 0 [10000]).inPos]? = some 10000 ∧ (9999 : Int) < 10000 ∧
      (loadAt 100 [9999]).stream[(loadAt 100 [9999]).inPos]? = some 9999 ∧ (loadAt 100 [9999]).loadCount = 100 ∧
      (loadAt 99 [-9999]).stream[(loadAt 99 [-9999]).inPos]? = some (-9999) ∧ (loadAt 99 [-9999]).loadCount < 100 := by
  decide
theorem witness_WaitingLoaderChangesNothing : (loadAt 5 []).phase = .loading ∧ (loadAt 5 []).inNext = .pending := by
  decide
theorem witness_HostInputKeepsTheInvariant : soundState.Inv := soundState_Inv
theorem witness_TheLoaderAtEndOfStream :
    (loadAt 1 []).endInput.phase = .loading ∧ (loadAt 1 []).endInput.inNext = .endOfStream := by decide
theorem witness_TheTerminatorEndsTheLoad :
    (∀ v ∈ List.replicate 100 (9999 : Int), (-9999 : Int) ≤ v ∧ v ≤ 9999) ∧
      (List.replicate 100 (9999 : Int)).length ≤ 100 :=
  ⟨fun v hv => by rw [(List.mem_replicate.1 hv).2]; decide, by rw [List.length_replicate]⟩
theorem witness_TheHundredFirstWordFailsTheLoad :
    (∀ v ∈ List.replicate 101 (1 : Int), (-9999 : Int) ≤ v ∧ v ≤ 9999) ∧ (List.replicate 101 (1 : Int)).length = 101 :=
  ⟨fun v hv => by rw [(List.mem_replicate.1 hv).2]; decide, List.length_replicate⟩
theorem witness_AFailedLoadHasNoRun :
    State.phase { State.reset with phase := .loadFailed .invalidWord } = .loadFailed .invalidWord := rfl
theorem witness_ExecutionStartsAtAddressZero : State.phase { State.reset with phase := .loaded } = .loaded := rfl
theorem witness_ConstructionState : (0 : Int) ≤ 99 ∧ (99 : Int) ≤ 99 := by decide
theorem witness_StatusShowsTheRunStateCodes :
    State.phase { runAt 0 [] with phase := .run (.abended .invalidOpcode) } = .run (.abended .invalidOpcode) ∧
      (runAt 0 []).phase = .run .running := ⟨rfl, rfl⟩
theorem witness_DumpShowsTheStateAtRest : (State.dump { State.reset with phase := .loaded }).isSome = true := by decide
theorem witness_ARenderedWordIsItsSignAndFourDigits : (-9999 : Int) ≤ -9999 ∧ (-9999 : Int) ≤ 9999 := by decide

end Sys2Proof.Tests
end

section
/-!
PROOFS of the family 10_state.md, what happens. What an instruction, the loader and the machine can do in one step, each
as a relation with one named constructor a case, so that a proof about every step is a case split by name. The relations
are tied to the model by `exec_effect`, `loadStep_effect` and `step_effect`.
-/

namespace Sys2Proof.Machine

/-- The instructions that write `acc` (10_state.md R24). -/
def WritesAcc (i : Instr) : Prop :=
  i = .load i.operand ∨ i = .add i.operand ∨ i = .subtract i.operand ∨ i = .multiply i.operand ∨ i = .divide i.operand

/-- What instruction `i` can make of state `s`. -/
inductive ExecEffect (i : Instr) (s : State) : State → Prop
  /-- A READ waits for its value. -/
  | waits (hn : s.inNext = .pending) : ExecEffect i s s
  /-- A READ takes a Word, stores and echoes it. -/
  | reads {v : Int} (hn : s.inNext = .value v) (hv : inWordRange v) (ha : addrValid i.operand) :
      ExecEffect i s ((s.inTake.setMem (s.mem.set i.operand.toNat v)).emit (.echo v)).advance
  /-- A READ takes a value that is no Word. -/
  | rejects {v : Int} (hn : s.inNext = .value v) : ExecEffect i s (s.inTake.raiseAbend .illegalInput)
  | writes (v : Int) : ExecEffect i s (s.emit (.write v)).advance
  | stores (ha : addrValid i.operand) : ExecEffect i s (s.setMem (s.mem.set i.operand.toNat s.acc)).advance
  /-- A LOAD, or an arithmetic instruction, commits its value. -/
  | commits {v : Int} (hi : WritesAcc i) (hv : s.holdsWords → inWordRange v) : ExecEffect i s (s.setAcc v).advance
  /-- The instruction raises an ABEND and has taken no input. -/
  | abends {k : AbendKind} (hk : k.endsRun = true) : ExecEffect i s (s.raiseAbend k)
  | jumps {a : Int} (ha : a = i.operand ∨ a = s.ic + 1) : ExecEffect i s (s.setIc a)
  | halts (hi : i = .halt i.operand) : ExecEffect i s ((s.emit .halted).setRun .halted)

theorem branchIf_effect {i : Instr} {s t : State} {c : Bool} (h : branchIf s c i.operand = .next t) :
    ExecEffect i s t := by
  cases branchIf_eq_next.1 h
  cases c
  · exact .jumps (.inr rfl)
  · exact .jumps (.inl rfl)

theorem writesAcc_of_exactResult {i : Instr} (h : (exactResult i 0 0).isSome) : WritesAcc i := by
  cases i <;> simp_all [exactResult, WritesAcc, Instr.operand]

theorem arith_effect {i : Instr} {s t : State} (hi : (exactResult i 0 0).isSome) (h : exec i s = .next t) :
    ExecEffect i s t := by
  obtain ⟨r, -, -, ⟨hr, rfl⟩ | ⟨-, rfl⟩ | ⟨-, rfl⟩⟩ := exec_arith_eq_next hi h
  · exact .commits (writesAcc_of_exactResult hi) fun _ => hr
  · exact .abends rfl
  · exact .abends rfl

theorem exec_effect {i : Instr} {s t : State} (h : exec i s = .next t) : ExecEffect i s t := by
  cases i with
  | read a =>
    rcases execRead_eq_next h with ⟨hn, rfl⟩ | ⟨v, hn, ⟨hv, ha, rfl⟩ | ⟨-, rfl⟩⟩
    · exact .waits hn
    · exact .reads (i := .read a) hn hv ha
    · exact .rejects hn
  | write a => obtain ⟨-, rfl⟩ := execWrite_eq_next h; exact .writes _
  | store a => obtain ⟨ha, rfl⟩ := execStore_eq_next h; exact .stores (i := .store a) ha
  | load a =>
    obtain ⟨-, rfl⟩ := execLoad_eq_next h
    exact .commits (.inl rfl) fun ⟨hmem, _⟩ => Memory.get_word hmem _
  | divide a =>
    obtain ⟨-, ⟨-, rfl⟩ | ⟨-, rfl⟩⟩ := execDivide_eq_next h
    · exact .abends rfl
    · exact .commits (by simp [WritesAcc, Instr.operand]) fun ⟨_, hacc, _⟩ => tdiv_inWordRange _ hacc
  | add a | subtract a | multiply a => exact arith_effect rfl h
  | branch a => cases h; exact .jumps (.inl rfl)
  | branchZero a => exact branchIf_effect (i := .branchZero a) h
  | branchNeg a => exact branchIf_effect (i := .branchNeg a) h
  | halt a => cases h; exact .halts rfl

/-- What the loader can make of state `s` in a step that is not a wait (70_reset_and_hazards.md R234). -/
inductive LoadEffect (s : State) : State → Prop
  /-- The terminator ends the load. -/
  | ends {v : Int} (hn : s.inNext = .value v) : LoadEffect s s.inTake.loadOk
  | stores {v : Int} (hn : s.inNext = .value v) (hv : inWordRange v) (hc : s.loadCount < 100) :
      LoadEffect s (s.inTake.setMem (s.mem.set s.loadCount v)).countLoaded
  /-- The value fails the load. -/
  | fails {v : Int} (r : LoadFailure) (k : AbendKind) (hn : s.inNext = .value v) :
      LoadEffect s ((s.inTake.loadFail r).emit (.abend k))
  /-- The stream ends before the terminator, under the policy `accept`. -/
  | acceptsEnd : LoadEffect s s.loadOk
  /-- The stream ends before the terminator, under the policy `reject` with nothing reported. -/
  | rejectsEnd : LoadEffect s (s.loadFail .endOfStream)
  /-- The stream ends before the terminator, under the policy `reject` with a report. -/
  | reportsEnd (k : AbendKind) : LoadEffect s ((s.loadFail .endOfStream).emit (.abend k))

theorem loadAtEnd_effect (s : State) (p : LoadEofPolicy) (k : Option AbendKind) : LoadEffect s (s.loadAtEnd p k) := by
  rcases s.loadAtEnd_cases p k with ⟨-, h⟩ | ⟨-, ⟨-, h⟩ | ⟨j, -, h⟩⟩ <;> rw [h]
  · exact .acceptsEnd
  · exact .rejectsEnd
  · exact .reportsEnd j

theorem loadStep_effect {s t : State} (h : loadStep s = .next t) :
    (s.inNext = .pending ∧ t = s) ∨ LoadEffect s t := by
  rcases loadStep_eq_next h with hw | ⟨-, rfl⟩ | ⟨v, hn, ⟨-, rfl⟩ | ⟨-, -, rfl⟩ | ⟨-, -, rfl⟩ | ⟨hv, -, ha, rfl⟩⟩
  · exact .inl hw
  · exact .inr (loadAtEnd_effect ..)
  · exact .inr (.ends hn)
  · exact .inr (.fails _ _ hn)
  · exact .inr (.fails _ _ hn)
  · rw [addrValid_iff] at ha
    exact .inr (.stores hn hv (by omega))

/-- What a step of the machine can make of state `s`. -/
inductive StepEffect (s : State) : State → Prop
  /-- The loader, or a READ, waits for a value. -/
  | waits (hp : s.phase = .loading ∨ s.phase = .run .running) : StepEffect s s
  | loads {t : State} (hp : s.phase = .loading) (h : LoadEffect s t) : StepEffect s t
  | starts (hp : s.phase = .loaded) : StepEffect s s.start
  | failsPcCheck (hp : s.phase = .run .running) : StepEffect s (s.raiseAbend .addressabilityError)
  | meetsInvalidWord {w : Int} (hp : s.phase = .run .running) (hw : s.memRead s.ic = some w) :
      StepEffect s ((s.latch w).raiseAbend .invalidOpcode)
  | executes {w : Int} {i : Instr} {t : State} (hp : s.phase = .run .running) (hw : s.memRead s.ic = some w)
      (hd : decode w = .instr i) (h : ExecEffect i (s.latch w) t) : StepEffect s t

theorem step_effect {s t : State} (h : step s = .next t) : StepEffect s t := by
  rcases step_eq_next h with ⟨hp, hl⟩ | ⟨hp, rfl⟩ | ⟨hp, -⟩
  · rcases loadStep_effect hl with ⟨-, rfl⟩ | he
    · exact .waits (.inl hp)
    · exact .loads hp he
  · exact .starts hp
  · rcases step_running_eq_next hp h with ⟨-, rfl⟩ | ⟨w, hw, ⟨-, rfl⟩ | ⟨i, hd, ⟨-, rfl⟩ | ⟨-, hx⟩⟩⟩
    · exact .failsPcCheck hp
    · exact .meetsInvalidWord hp hw
    · exact .waits (.inr hp)
    · exact .executes hp hw hd (exec_effect hx)

end Sys2Proof.Machine
end

section
/-!
PROOFS of the family 10_state.md, the machine's invariant. One rule per operation that a step is made of, then the
instruction, the loader and the step.
-/

namespace Sys2Proof.Machine

/-- R76: an instruction's operand is two decimal digits, since no negative word is an instruction. -/
theorem operand_bounds_of_decode {w : Int} {i : Instr} (h : decode w = .instr i) :
    0 ≤ i.operand ∧ i.operand < 100 := by
  obtain ⟨hopc, hopd⟩ := decode_eq_instr.1 h
  have hbounds := opcodeNumber_bounds i.opcode
  have hw : 0 ≤ w := by
    by_contra hneg
    obtain ⟨hfield, -⟩ := fields_of_neg (not_le.1 hneg)
    omega
  obtain ⟨-, hfield⟩ := fields_of_nonneg hw
  omega

theorem State.phaseLegal_of_running {s : State} (h : s.phase = .run .running) : s.phaseLegal = true := by
  simp [State.phaseLegal, h]

section
variable {s : State}

theorem State.Inv.emit (h : s.Inv) (e : Event) : (s.emit e).Inv := { h with }

theorem State.Inv.inTake {v : Int} (h : s.Inv) (hn : s.inNext = .value v) : s.inTake.Inv := by
  obtain ⟨hlt, -⟩ := List.getElem?_eq_some_iff.1 (State.inNext_eq_value.1 hn)
  obtain ⟨-, hcount⟩ := h.counts
  exact { h with counts := ⟨hlt, hcount⟩ }

theorem State.Inv.setMem_set {a : Nat} {v : Int} (h : s.Inv) (ha : a < 100) (hv : inWordRange v) :
    (s.setMem (s.mem.set a v)).Inv := by
  obtain ⟨hmem, hregs⟩ := h.words
  exact { h with memWf := Memory.set_wf v h.memWf ha, words := ⟨Memory.set_words hmem hv, hregs⟩ }

theorem State.Inv.setAcc {v : Int} (h : s.Inv) (hv : inWordRange v) : (s.setAcc v).Inv := by
  obtain ⟨hmem, -, hir⟩ := h.words
  exact { h with words := ⟨hmem, hv, hir⟩ }

theorem State.Inv.setIc {a : Int} (h : s.Inv) (h0 : 0 ≤ a) (h100 : a ≤ 100) : (s.setIc a).Inv :=
  { h with icRange := ⟨h0, h100⟩ }

theorem State.Inv.advance (h : s.Inv) (hic : s.ic < 100) : s.advance.Inv :=
  h.setIc (Int.add_nonneg h.icRange.1 (by decide)) hic

theorem State.Inv.latch {w : Int} (h : s.Inv) (hw : inWordRange w) : (s.latch w).Inv := by
  obtain ⟨hmem, hacc, -⟩ := h.words
  exact { h with words := ⟨hmem, hacc, hw⟩, fields := ⟨rfl, rfl⟩ }

theorem State.Inv.raiseAbend {k : AbendKind} (h : s.Inv) (hk : k.endsRun = true) : (s.raiseAbend k).Inv :=
  { h with phase := hk }

theorem State.Inv.halt (h : s.Inv) : (s.setRun .halted).Inv := { h with phase := rfl }

theorem State.Inv.loadOk (h : s.Inv) : s.loadOk.Inv := { h with phase := rfl }

theorem State.Inv.loadFail (h : s.Inv) (r : LoadFailure) : (s.loadFail r).Inv := { h with phase := rfl }

theorem State.Inv.countLoaded (h : s.Inv) (hc : s.loadCount < 100) : s.countLoaded.Inv := by
  obtain ⟨hpos, -⟩ := h.counts
  exact { h with counts := ⟨hpos, hc⟩ }

theorem State.Inv.start (h : s.Inv) : s.start.Inv :=
  { h.setIc (a := Config.entryIc) (by decide) (by decide) with phase := rfl }

/-- R22: a fetch gives a Word. -/
theorem State.Inv.memRead_word {a w : Int} (h : s.Inv) (hw : s.memRead a = some w) : inWordRange w := by
  obtain ⟨hmem, -⟩ := h.words
  obtain ⟨-, rfl⟩ := State.memRead_eq_some.1 hw
  exact Memory.get_word hmem _

end

theorem toNat_lt_of_addrValid {a : Int} (h : addrValid a) : a.toNat < 100 := by
  rw [addrValid_iff] at h
  omega

/-- An instruction at an address of the memory, its operand in its field, keeps the invariant. -/
theorem ExecEffect.keeps_inv {i : Instr} {s t : State} (h : ExecEffect i s t) (hs : s.Inv) (hic : s.ic < 100)
    (hopd : 0 ≤ i.operand ∧ i.operand < 100) : t.Inv := by
  obtain ⟨-, hacc, -⟩ := hs.words
  cases h with
  | waits => exact hs
  | reads hn hv ha => exact (((hs.inTake hn).setMem_set (toNat_lt_of_addrValid ha) hv).emit _).advance hic
  | rejects hn => exact (hs.inTake hn).raiseAbend rfl
  | writes v => exact (hs.emit _).advance hic
  | stores ha => exact (hs.setMem_set (toNat_lt_of_addrValid ha) hacc).advance hic
  | commits _ hv => exact (hs.setAcc (hv hs.words)).advance hic
  | abends hk => exact hs.raiseAbend hk
  | jumps ha =>
    rcases ha with rfl | rfl
    · exact hs.setIc hopd.1 hopd.2.le
    · exact hs.advance hic
  | halts => exact (hs.emit _).halt

theorem LoadEffect.keeps_inv {s t : State} (h : LoadEffect s t) (hs : s.Inv) : t.Inv := by
  cases h with
  | ends hn => exact (hs.inTake hn).loadOk
  | stores hn hv hc => exact ((hs.inTake hn).setMem_set hc hv).countLoaded hc
  | fails r k hn => exact ((hs.inTake hn).loadFail r).emit _
  | acceptsEnd => exact hs.loadOk
  | rejectsEnd => exact hs.loadFail _
  | reportsEnd k => exact (hs.loadFail _).emit _

/-- Settles O42: the invariant is kept by every operation that a step is made of, and the one step that could leave its
bounds, the advance, is taken at an `ic` that the fetch has found inside the memory. -/
theorem everyStepKeepsTheInvariant : Obligations.EveryStepKeepsTheInvariant := by
  intro s t hs h
  cases step_effect h with
  | waits => exact hs
  | loads _ hl => exact hl.keeps_inv hs
  | starts => exact hs.start
  | failsPcCheck => exact hs.raiseAbend rfl
  | meetsInvalidWord _ hw => exact (hs.latch (hs.memRead_word hw)).raiseAbend rfl
  | executes _ hw hd hx =>
    obtain ⟨hic, -⟩ := State.memRead_eq_some.1 hw
    exact hx.keeps_inv (hs.latch (hs.memRead_word hw)) (addrValid_iff.1 hic).2 (operand_bounds_of_decode hd)

/-- Settles O41. -/
theorem invariantHoldsAtConstruction : Obligations.InvariantHoldsAtConstruction where
  memWf := State.reset_mem_wf
  words := ⟨by decide, by decide, by decide⟩
  icRange := ⟨by decide, by decide⟩
  fields := ⟨by decide, by decide⟩
  phase := rfl
  counts := ⟨by decide, by decide⟩

end Sys2Proof.Machine
end

section
/-!
PROOFS of the family 10_state.md, the run state and OUT.
-/

namespace Sys2Proof.Machine

/-- OUT while the run has not ended: no final event (R38). -/
def State.outUnended (s : State) : Prop := ∀ e ∈ s.out, e.isFinal = false

theorem outMatchesPhase_iff_of_running {s : State} (hp : s.phase = .run .running) :
    s.outMatchesPhase ↔ s.outUnended := by
  simp [State.outMatchesPhase, State.outUnended, hp]

theorem State.outUnended.running {s : State} (h : s.outUnended) (hp : s.phase = .run .running) : s.outMatchesPhase :=
  (outMatchesPhase_iff_of_running hp).2 h

theorem out_eq_nil_of_loading {s : State} (hp : s.phase = .loading) (h : s.outMatchesPhase) : s.out = [] := by
  simpa [State.outMatchesPhase, hp] using h

theorem out_eq_nil_of_loaded {s : State} (hp : s.phase = .loaded) (h : s.outMatchesPhase) : s.out = [] := by
  simpa [State.outMatchesPhase, hp] using h

theorem State.outUnended.emit {s : State} {e : Event} (h : s.outUnended) (he : e.isFinal = false) :
    (s.emit e).outUnended := by
  intro e' hmem
  rcases List.mem_append.1 hmem with hold | hnew
  · exact h e' hold
  · rwa [List.mem_singleton.1 hnew]

theorem State.outUnended.raiseAbend {s : State} (h : s.outUnended) (k : AbendKind) :
    (s.raiseAbend k).outMatchesPhase := ⟨s.out, rfl, h⟩

theorem State.outUnended.halt {s : State} (h : s.outUnended) : ((s.emit .halted).setRun .halted).outMatchesPhase :=
  ⟨s.out, rfl, h⟩

theorem ExecEffect.keeps_out {i : Instr} {s t : State} (h : ExecEffect i s t) (hp : s.phase = .run .running)
    (hs : s.outUnended) : t.outMatchesPhase := by
  cases h with
  | waits | stores | commits | jumps => exact hs.running hp
  | @reads v => exact State.outUnended.running (hs.emit (e := .echo v) rfl) hp
  | writes v => exact State.outUnended.running (hs.emit (e := .write v) rfl) hp
  | rejects | abends => exact hs.raiseAbend _
  | halts => exact hs.halt

theorem LoadEffect.keeps_out {s t : State} (h : LoadEffect s t) (hp : s.phase = .loading) (hs : s.out = []) :
    t.outMatchesPhase := by
  cases h with
  | ends | acceptsEnd => exact hs
  | stores => simpa [State.outMatchesPhase, hp] using hs
  | fails | rejectsEnd | reportsEnd => exact trivial

/-- Settles O43: only HALT and an ABEND emit a final event, and each writes the run state it names in the same step. -/
theorem everyStepKeepsOutputAndRunStateInAgreement : Obligations.EveryStepKeepsOutputAndRunStateInAgreement := by
  intro s t hs h
  cases step_effect h with
  | waits => exact hs
  | loads hp hl => exact hl.keeps_out hp (out_eq_nil_of_loading hp hs)
  | starts hp =>
    have hout : s.out = [] := out_eq_nil_of_loaded hp hs
    exact State.outUnended.running (by simp [State.outUnended, hout]) s.start_phase
  | failsPcCheck hp => exact ((outMatchesPhase_iff_of_running hp).1 hs).raiseAbend _
  | @meetsInvalidWord w hp =>
    have hlatch : (s.latch w).outUnended := (outMatchesPhase_iff_of_running hp).1 hs
    exact hlatch.raiseAbend _
  | executes hp _ _ hx => exact hx.keeps_out hp ((outMatchesPhase_iff_of_running hp).1 hs)

/-- An instruction leaves the run state, or is a HALT, or ends the run with an ABEND of the run that it reports. -/
theorem ExecEffect.phase_cases {i : Instr} {s t : State} (h : ExecEffect i s t) :
    t.phase = s.phase ∨ (i = .halt i.operand ∧ t.phase = .run .halted) ∨
      ∃ k, k.endsRun = true ∧ t.phase = .run (.abended k) ∧ t.out = s.out ++ [.abend k] := by
  cases h with
  | waits | reads | writes | stores | commits | jumps => exact .inl rfl
  | rejects => exact .inr (.inr ⟨_, rfl, rfl, rfl⟩)
  | abends hk => exact .inr (.inr ⟨_, hk, rfl, rfl⟩)
  | halts hi => exact .inr (.inl ⟨hi, rfl⟩)

theorem LoadEffect.not_run {s t : State} (h : LoadEffect s t) (hp : s.phase = .loading) (st : RunState) :
    t.phase ≠ .run st := by
  cases h <;> simp [hp]

/-- R30, R100: the run states a step starts from and those it can lead to. -/
theorem StepEffect.run_cases {s t : State} (h : StepEffect s t) :
    (t.phase = s.phase ∧ (s.phase = .loading ∨ s.phase = .run .running)) ∨
    (s.phase = .loading ∧ ∀ st, t.phase ≠ .run st) ∨
    (s.phase = .loaded ∧ t.phase = .run .running) ∨
    (s.phase = .run .running ∧ t.phase = .run .halted ∧ ∃ w a, s.memRead s.ic = some w ∧ decode w = .instr (.halt a)) ∨
    (s.phase = .run .running ∧
      ∃ k, k.endsRun = true ∧ t.phase = .run (.abended k) ∧ t.out = s.out ++ [.abend k]) := by
  cases h with
  | waits hp => exact .inl ⟨rfl, hp⟩
  | loads hp hl => exact .inr (.inl ⟨hp, hl.not_run hp⟩)
  | starts hp => exact .inr (.inr (.inl ⟨hp, rfl⟩))
  | failsPcCheck hp | meetsInvalidWord hp => exact .inr (.inr (.inr (.inr ⟨hp, _, rfl, rfl, rfl⟩)))
  | @executes w i _ hp hw hd hx =>
    rcases hx.phase_cases with hsame | ⟨hi, hhalt⟩ | habend
    · exact .inl ⟨hsame, .inr hp⟩
    · exact .inr (.inr (.inr (.inl ⟨hp, hhalt, w, i.operand, hw, hi ▸ hd⟩)))
    · exact .inr (.inr (.inr (.inr ⟨hp, habend⟩)))

theorem AbendKind.ne_load_kinds {k : AbendKind} (h : k.endsRun = true) : k ≠ .invalidWord ∧ k ≠ .programTooLarge := by
  constructor <;> rintro rfl <;> cases h

/-- Settles O29, from the cases of a step by run state. -/
theorem runStateMovesOnlyByHaltOrAbend : Obligations.RunStateMovesOnlyByHaltOrAbend := by
  intro s t h
  rcases (step_effect h).run_cases with
    ⟨ht, hp | hp⟩ | ⟨hp, ht⟩ | ⟨hp, ht⟩ | ⟨hp, ht, hhalt⟩ | ⟨hp, k, hk, ht, hout⟩
  · simp [ht, hp]
  · simp [ht, hp]
  · simp [ht, hp]
  · simp [ht, hp]
  · exact ⟨by simp [hp], fun _ => ⟨hp, hhalt⟩, by simp [ht], by simp [hp], by simp [hp]⟩
  · have hkinds := AbendKind.ne_load_kinds hk
    simp [ht, hp, hout, hkinds]

/-- Settles O45. -/
theorem outputAndFreshnessHoldAtConstruction : Obligations.OutputAndFreshnessHoldAtConstruction :=
  ⟨rfl, rfl, rfl, rfl, rfl, rfl, fun _ _ => rfl⟩

end Sys2Proof.Machine
end

section
/-!
PROOFS of the family 10_state.md, what a step leaves: the accumulator, the memory, the ports, and the input it has not
come to.
-/

namespace Sys2Proof.Machine

theorem ExecEffect.acc_eq_or {i : Instr} {s t : State} (h : ExecEffect i s t) : t.acc = s.acc ∨ WritesAcc i := by
  cases h with
  | commits hi => exact .inr hi
  | waits | reads | rejects | writes | stores | abends | jumps | halts => exact .inl rfl

theorem LoadEffect.acc_eq {s t : State} (h : LoadEffect s t) : t.acc = s.acc := by
  cases h <;> rfl

/-- Settles O30: every case of a step but the commit of a LOAD or of an arithmetic instruction leaves `acc`. -/
theorem onlyLoadAndArithmeticWriteTheAccumulator : Obligations.OnlyLoadAndArithmeticWriteTheAccumulator := by
  intro s t h hne
  cases step_effect h with
  | waits | starts | failsPcCheck | meetsInvalidWord => exact absurd rfl hne
  | loads _ hl => exact absurd hl.acc_eq hne
  | @executes w i _ _ hw hd hx =>
    have hi : WritesAcc i := hx.acc_eq_or.resolve_left hne
    exact ⟨w, i.operand, hw, by simpa only [hd, Decoded.instr.injEq, WritesAcc] using hi⟩

theorem memRead_congr {s t : State} (h : t.mem = s.mem) (b : Int) : t.memRead b = s.memRead b := by
  simp [State.memRead, h]

/-- An instruction that changes what a slot reads is a READ or a STORE of that slot. -/
theorem exec_memRead_ne {i : Instr} {s t : State} {b : Int} (h : exec i s = .next t) (hne : t.memRead b ≠ s.memRead b) :
    i = .read b ∨ i = .store b := by
  rcases exec_mem_cases h with hsame | ⟨v, hi, ha, hset⟩
  · exact absurd (memRead_congr hsame b) hne
  · have hread : t.memRead b = if b = i.operand then some v else s.memRead b := by
      rw [memRead_congr (s := s.setMem (s.mem.set i.operand.toNat v)) hset, State.memRead_setMem_set s v b ha]
    by_cases hb : b = i.operand
    · exact hb ▸ hi
    · exact absurd (hread.trans (if_neg hb)) hne

/-- Settles O31: before its instruction runs, a step of the engine has written no slot. -/
theorem onlyReadAndStoreWriteMemory : Obligations.OnlyReadAndStoreWriteMemory := by
  intro s t b hp h hne
  rcases step_running_eq_next hp h with ⟨-, rfl⟩ | ⟨w, hw, ⟨-, rfl⟩ | ⟨i, hd, ⟨-, rfl⟩ | ⟨-, hx⟩⟩⟩
  · exact absurd rfl hne
  · exact absurd rfl hne
  · exact absurd rfl hne
  · refine ⟨w, hw, ?_⟩
    rcases exec_memRead_ne hx hne with rfl | rfl
    · exact .inl hd
    · exact .inr hd

/-- The ports from a state to the next (R37, R38): the host's stream as it was, at most one value taken of it, at most one
event more on OUT. -/
def PortsAdvance (s t : State) : Prop :=
  t.stream = s.stream ∧ t.streamEnded = s.streamEnded ∧ (t.inPos = s.inPos ∨ t.inPos = s.inPos + 1) ∧
    (t.out = s.out ∨ ∃ e, t.out = s.out ++ [e])

theorem ExecEffect.portsAdvance {i : Instr} {s t : State} (h : ExecEffect i s t) : PortsAdvance s t := by
  cases h with
  | waits | stores | commits | jumps => exact ⟨rfl, rfl, .inl rfl, .inl rfl⟩
  | writes | abends | halts => exact ⟨rfl, rfl, .inl rfl, .inr ⟨_, rfl⟩⟩
  | reads | rejects => exact ⟨rfl, rfl, .inr rfl, .inr ⟨_, rfl⟩⟩

theorem LoadEffect.portsAdvance {s t : State} (h : LoadEffect s t) : PortsAdvance s t := by
  cases h with
  | acceptsEnd | rejectsEnd => exact ⟨rfl, rfl, .inl rfl, .inl rfl⟩
  | reportsEnd => exact ⟨rfl, rfl, .inl rfl, .inr ⟨_, rfl⟩⟩
  | ends | stores => exact ⟨rfl, rfl, .inr rfl, .inl rfl⟩
  | fails => exact ⟨rfl, rfl, .inr rfl, .inr ⟨_, rfl⟩⟩

/-- Settles O32, case by case of a step; the fetch touches no port. -/
theorem portsMoveForwardOnly : Obligations.PortsMoveForwardOnly := by
  intro s t h
  cases step_effect h with
  | waits | starts => exact ⟨rfl, rfl, .inl rfl, .inl rfl⟩
  | failsPcCheck | meetsInvalidWord => exact ⟨rfl, rfl, .inl rfl, .inr ⟨_, rfl⟩⟩
  | loads _ hl => exact hl.portsAdvance
  | executes _ _ _ hx => exact hx.portsAdvance

/-! ### Input that a step has not come to -/

/-- More input behind what the host has supplied. -/
def State.appendInput (vs : List Int) (s : State) : State := { s with stream := s.stream ++ vs }

/-- A function applied to the next state of a result. -/
def mapNext (f : State → State) : Result → Result
  | .next t => .next (f t)
  | .fault r => .fault r
  | .refused r => .refused r

@[simp] theorem mapNext_next (f : State → State) (t : State) : mapNext f (.next t) = .next (f t) := rfl
@[simp] theorem mapNext_fault (f : State → State) (r : Fault) : mapNext f (.fault r) = .fault r := rfl

section
variable (s : State) (vs : List Int)

@[simp] theorem appendInput_phase : (s.appendInput vs).phase = s.phase := rfl
@[simp] theorem appendInput_loadCount : (s.appendInput vs).loadCount = s.loadCount := rfl
@[simp] theorem appendInput_inTake : (s.appendInput vs).inTake = s.inTake.appendInput vs := rfl
@[simp] theorem appendInput_memRead (a : Int) : (s.appendInput vs).memRead a = s.memRead a := rfl

theorem appendInput_memWrite (a v : Int) :
    (s.appendInput vs).memWrite a v = (s.memWrite a v).map (State.appendInput vs) := by
  unfold State.memWrite
  split <;> rfl

/-- A value that waits is still the next one. -/
theorem appendInput_inNext (h : s.inPos < s.stream.length) : (s.appendInput vs).inNext = s.inNext := by
  have hnext : (s.appendInput vs).stream[(s.appendInput vs).inPos]? = some s.stream[s.inPos] := by
    simp [State.appendInput, List.getElem?_append_left h]
  rw [State.inNext_eq_value.2 hnext, State.inNext_eq_value.2 (List.getElem?_eq_getElem h)]

theorem appendInput_withOperand {a : Int} {go go' : Int → Result}
    (hgo : ∀ v, go' v = mapNext (State.appendInput vs) (go v)) :
    withOperand (s.appendInput vs) a go' = mapNext (State.appendInput vs) (withOperand s a go) := by
  unfold withOperand
  rw [appendInput_memRead]
  cases s.memRead a with
  | none => rfl
  | some v => exact hgo v

theorem appendInput_storeOperand {a v : Int} {go : State → Result}
    (hgo : ∀ t : State, go (t.appendInput vs) = mapNext (State.appendInput vs) (go t)) :
    storeOperand (s.appendInput vs) a v go = mapNext (State.appendInput vs) (storeOperand s a v go) := by
  unfold storeOperand
  rw [appendInput_memWrite]
  cases s.memWrite a v with
  | none => rfl
  | some t => exact hgo t

theorem appendInput_rangeCommit (r : Int) :
    rangeCommit (s.appendInput vs) r = mapNext (State.appendInput vs) (rangeCommit s r) := by
  unfold rangeCommit
  cases overflowDetect r <;> rfl

theorem appendInput_branchIf (c : Bool) (a : Int) :
    branchIf (s.appendInput vs) c a = mapNext (State.appendInput vs) (branchIf s c a) := by
  cases c <;> rfl

theorem appendInput_readValue (a v : Int) :
    readValue (s.appendInput vs) a v = mapNext (State.appendInput vs) (readValue s a v) := by
  unfold readValue
  split
  · exact appendInput_storeOperand s.inTake vs fun _ => rfl
  · rfl

theorem appendInput_execRead (a : Int) (h : s.inPos < s.stream.length) :
    execRead a (s.appendInput vs) = mapNext (State.appendInput vs) (execRead a s) := by
  unfold execRead
  rw [appendInput_inNext s vs h]
  cases s.inNext with
  | value v => exact appendInput_readValue s vs a v
  | pending => rfl
  | endOfStream => rfl

theorem appendInput_execDivide (a : Int) :
    execDivide a (s.appendInput vs) = mapNext (State.appendInput vs) (execDivide a s) := by
  refine appendInput_withOperand s vs fun d => ?_
  split <;> rfl

theorem appendInput_exec (i : Instr) (h : s.inPos < s.stream.length) :
    exec i (s.appendInput vs) = mapNext (State.appendInput vs) (exec i s) := by
  cases i with
  | read a => exact appendInput_execRead s vs a h
  | write a | load a => exact appendInput_withOperand s vs fun _ => rfl
  | store a => exact appendInput_storeOperand s vs fun _ => rfl
  | add a | subtract a | multiply a => exact appendInput_withOperand s vs fun _ => appendInput_rangeCommit s vs _
  | divide a => exact appendInput_execDivide s vs a
  | branch a | halt a => rfl
  | branchZero a | branchNeg a => exact appendInput_branchIf s vs _ a

theorem appendInput_heldBy (i : Instr) (h : s.inPos < s.stream.length) :
    (s.appendInput vs).heldBy i = s.heldBy i := by
  cases i <;> simp [State.heldBy, appendInput_inNext s vs h]

theorem appendInput_runWord (w : Int) (h : s.inPos < s.stream.length) :
    runWord (s.appendInput vs) w = mapNext (State.appendInput vs) (runWord s w) := by
  unfold runWord
  cases decode w with
  | invalidOpcode => rfl
  | instr i =>
    simp only [appendInput_heldBy s vs i h]
    cases s.heldBy i with
    | true => rfl
    | false => exact appendInput_exec (s.latch w) vs i h

theorem appendInput_engineStep (h : s.inPos < s.stream.length) :
    engineStep (s.appendInput vs) = mapNext (State.appendInput vs) (engineStep s) := by
  by_cases hpc : s.pcValid
  · rw [engineStep_of_pcValid hpc, engineStep_of_pcValid (s := s.appendInput vs) hpc]
    exact appendInput_runWord s vs _ h
  · rw [engineStep_of_pcInvalid hpc, engineStep_of_pcInvalid (s := s.appendInput vs) hpc]
    rfl

theorem appendInput_loadValue (v : Int) :
    loadValue (s.appendInput vs) v = mapNext (State.appendInput vs) (loadValue s v) := by
  simp only [loadValue, appendInput_inTake, appendInput_loadCount, appendInput_memWrite]
  split
  · rfl
  · split
    · split
      · rfl
      · cases s.inTake.memWrite s.loadCount v <;> rfl
    · rfl

theorem appendInput_loadStep (h : s.inPos < s.stream.length) :
    loadStep (s.appendInput vs) = mapNext (State.appendInput vs) (loadStep s) := by
  have hnext : s.inNext = .value s.stream[s.inPos] := State.inNext_eq_value.2 (List.getElem?_eq_getElem h)
  simp only [loadStep, appendInput_inNext s vs h, hnext]
  exact appendInput_loadValue s vs _

/-- While a value waits, a step and the arrival of more input commute. -/
theorem appendInput_step (h : s.inPos < s.stream.length) :
    step (s.appendInput vs) = mapNext (State.appendInput vs) (step s) := by
  cases hp : s.phase with
  | loading =>
    rw [step_of_loading hp, step_of_loading (s := s.appendInput vs) hp]
    exact appendInput_loadStep s vs h
  | loaded =>
    rw [step_of_loaded hp, step_of_loaded (s := s.appendInput vs) hp]
    rfl
  | loadFailed r => simp [step, hp]
  | run st =>
    cases st with
    | running =>
      rw [step_of_running hp, step_of_running (s := s.appendInput vs) hp]
      exact appendInput_engineStep s vs h
    | halted | abended => simp [step, hp]

end

/-- Settles O33: a step commutes with the arrival of more input, since all that reads the stream is the request for the
next value. -/
theorem unreadInputDoesNotMatter : Obligations.UnreadInputDoesNotMatter := by
  intro s t vs hunread h
  exact (appendInput_step s vs hunread).trans (congrArg (mapNext (State.appendInput vs)) h)

end Sys2Proof.Machine
end

section
/-!
PROOFS of the family 10_state.md, construction, STATUS and DUMP.
-/

namespace Sys2Proof.Machine

theorem atRest_iff {s : State} : s.atRest = true ↔ s.phase ≠ .loading ∧ s.phase ≠ .run .running := by
  unfold State.atRest
  split <;> simp_all

theorem dump_isSome {s : State} : s.dump.isSome = s.atRest := by
  unfold State.dump
  split <;> simp_all

theorem dump_eq_some {s : State} {d : DumpView} (h : s.dump = some d) :
    d = { acc := s.acc, ir := s.ir, ic := s.ic, opc := s.opc, opd := s.opd, mem := s.mem.list } := by
  unfold State.dump at h
  split at h
  · exact (Option.some.inj h).symm
  · cases h

/-- The list of DUMP reads as the memory does, and ends where the memory ends. -/
theorem list_getElem?_eq_memRead (s : State) (a : Nat) : s.mem.list[a]? = s.memRead a := by
  by_cases ha : a < 100
  · rw [s.memRead_of_valid (addrValid_iff.2 (by omega))]
    simp [Memory.list, Config.memWords_val, ha]
  · rw [s.memRead_of_invalid (by rw [addrValid_iff]; omega)]
    simp [Memory.list, Config.memWords_val, not_lt.1 ha]

/-- Settles O56. -/
theorem dumpShowsTheStateAtRest : Obligations.DumpShowsTheStateAtRest := by
  intro s
  refine ⟨by rw [dump_isSome, atRest_iff], fun d hd => ?_⟩
  cases dump_eq_some hd
  exact ⟨rfl, rfl, rfl, rfl, rfl, list_getElem?_eq_memRead s⟩

/-- Settles O54: no slot is listed at construction, so each reads as the fill word. -/
theorem constructionState : Obligations.ConstructionState := by
  refine ⟨fun a h0 h99 => ?_, rfl, rfl, rfl, rfl, rfl, rfl, fun st h => by cases h⟩
  exact State.memRead_of_valid _ (addrValid_iff.2 ⟨h0, by omega⟩)

theorem status_of_run {s : State} {st : RunState} (h : s.phase = .run st) : s.status = some (st.code, st.kindCode) := by
  simp [State.status, h]

/-- Settles O55: the codes of each run state, on the port as `status_of_run` gives them. -/
theorem statusShowsTheRunStateCodes : Obligations.StatusShowsTheRunStateCodes :=
  fun _ => ⟨status_of_run, status_of_run, status_of_run, status_of_run, status_of_run, status_of_run, status_of_run,
    status_of_run⟩

end Sys2Proof.Machine
end

section
/-!
PROOFS of the family 20_memory.md, the memory as data: what a sequence of writes leaves in a slot, and that the canonical
form (log entry 1) has one list for each way to read.
-/

namespace Sys2Proof.Machine

/-- Settles O35, by induction on the writes from the latest back: it decides its own slot and leaves every other. -/
theorem aReadGivesTheLatestWrite : Obligations.AReadGivesTheLatestWrite := by
  intro ws a
  induction ws using List.reverseRecOn with
  | nil => rfl
  | append_singleton ws p ih =>
    rw [List.foldl_append, List.foldl_cons, List.foldl_nil, Memory.get_set, List.reverse_append, List.reverse_singleton,
      List.singleton_append]
    by_cases hp : p.1 = a
    · simp [hp]
    · simpa [hp, Ne.symm hp] using ih

theorem Memory.wf_cons {c : Cell} {m : Memory} :
    Memory.wf (c :: m) = true ↔
      (∀ d ∈ m, c.1 < d.1) ∧ (c.1 < Config.memWords ∧ c.2 ≠ Config.fillWord) ∧ m.wf = true := by
  rw [Memory.wf_iff, Memory.wf_iff, List.pairwise_cons, List.forall_mem_cons]
  tauto

/-- A canonical memory lists exactly the cells that read as something else than the fill word. -/
theorem Memory.mem_iff_get {m : Memory} (h : m.wf = true) {a : Nat} {v : Int} :
    (a, v) ∈ m ↔ m.get a = v ∧ v ≠ Config.fillWord := by
  induction m with
  | nil => exact ⟨nofun, fun ⟨hv, hne⟩ => absurd hv.symm hne⟩
  | cons c m ih =>
    obtain ⟨b, w⟩ := c
    obtain ⟨hlow, ⟨-, hw⟩, hm⟩ := Memory.wf_cons.1 h
    rw [List.mem_cons, ih hm, Memory.get, Prod.mk.injEq]
    by_cases hb : b = a
    · subst hb
      have htail : Memory.get m b = Config.fillWord := Memory.get_of_lt_all hlow
      rw [if_pos rfl, htail]
      constructor
      · rintro (⟨-, rfl⟩ | ⟨rfl, hne⟩)
        · exact ⟨rfl, hw⟩
        · exact absurd rfl hne
      · rintro ⟨rfl, -⟩
        exact .inl ⟨rfl, rfl⟩
    · rw [if_neg hb]
      exact or_iff_right fun ⟨hab, _⟩ => hb hab.symm

/-- Settles O36: two canonical memories that read alike list the same cells, and both list them in rising order. -/
theorem memoriesThatReadAlikeAreEqual : Obligations.MemoriesThatReadAlikeAreEqual := by
  intro m n hm hn hread
  have hcells : ∀ c : Cell, c ∈ m ↔ c ∈ n := fun ⟨a, v⟩ => by
    rw [Memory.mem_iff_get hm, Memory.mem_iff_get hn, hread]
  have hasymm : Std.Asymm fun c d : Cell => c.1 < d.1 := ⟨fun _ _ h => Nat.lt_asymm h⟩
  obtain ⟨hmsorted, -⟩ := Memory.wf_iff.1 hm
  obtain ⟨hnsorted, -⟩ := Memory.wf_iff.1 hn
  exact hmsorted.eq_of_mem_iff hnsorted hcells

end Sys2Proof.Machine
end

section
/-!
PROOFS of the family 20_memory.md, the fetch of what was stored. A fetched word and an operand both reach the memory
through `memRead`, so a stored Word is the next word run as soon as `ic` comes to its slot.
-/

namespace Sys2Proof.Machine

theorem step_of_fetched {s : State} {w : Int} (hp : s.phase = .run .running) (hw : s.memRead s.ic = some w) :
    step s = runWord s w := by
  obtain ⟨hic, rfl⟩ := State.memRead_eq_some.1 hw
  rw [step_of_running hp, engineStep_of_pcValid hic]

theorem runWord_of_not_held {s : State} {w : Int} {i : Instr} (hd : decode w = .instr i) (hh : s.heldBy i = false) :
    runWord s w = exec i (s.latch w) := by
  simp [runWord, hd, hh]

/-- A step that runs a STORE. -/
theorem step_store_eq_next {s t : State} {w a : Int} (hp : s.phase = .run .running) (hw : s.memRead s.ic = some w)
    (hd : decode w = .instr (.store a)) (h : step s = .next t) :
    addrValid a ∧ t = ((s.latch w).setMem (s.mem.set a.toNat s.acc)).advance := by
  rw [step_of_fetched hp hw, runWord_of_not_held hd rfl] at h
  exact execStore_eq_next h

/-- Settles O34: after the STORE the slot at `ic` reads as the stored Word, and the machine still runs. -/
theorem aStoredWordIsExecutedNext : Obligations.AStoredWordIsExecutedNext := by
  intro s t w a i hp hw hd h hic hdi hh
  obtain ⟨ha, ht⟩ := step_store_eq_next hp hw hd h
  have hrun : t.phase = .run .running := by rw [ht]; exact hp
  have hfetch : t.memRead t.ic = some s.acc := by
    rw [hic, ht]
    exact ((s.latch w).memRead_setMem_set s.acc a ha).trans (if_pos rfl)
  exact (step_of_fetched hrun hfetch).trans (runWord_of_not_held hdi hh)

end Sys2Proof.Machine
end

section
/-!
PROOFS of the family 20_memory.md, bad addresses. What a step can fault with, said once for an instruction, the engine and
the loader: READ at the end of the stream, and nothing else, once the operand and the loader's count are in their bounds.
-/

namespace Sys2Proof.Machine

theorem rangeCommit_ne_fault (s : State) (v : Int) (r : Fault) : rangeCommit s v ≠ .fault r := by
  unfold rangeCommit
  cases overflowDetect v <;> nofun

theorem branchIf_ne_fault (s : State) (c : Bool) (a : Int) (r : Fault) : branchIf s c a ≠ .fault r := by
  cases c <;> nofun

theorem execRead_eq_fault {s : State} {a : Int} {r : Fault} (ha : addrValid a) (h : execRead a s = .fault r) :
    s.inNext = .endOfStream ∧ r = .inputExhausted := by
  unfold execRead at h
  split at h
  · unfold readValue at h
    split at h
    · rw [storeOperand_eq s.inTake _ _ ha] at h
      cases h
    · cases h
  · cases h
  · next hn =>
    cases h
    exact ⟨hn, rfl⟩

theorem execDivide_ne_fault {s : State} {a : Int} (ha : addrValid a) (r : Fault) : execDivide a s ≠ .fault r := by
  rw [execDivide, withOperand_eq s _ ha]
  split <;> nofun

/-- With its operand inside the memory an instruction faults only as a READ at the end of the stream. -/
theorem exec_eq_fault {i : Instr} {s : State} {r : Fault} (ha : addrValid i.operand) (h : exec i s = .fault r) :
    i = .read i.operand ∧ s.inNext = .endOfStream ∧ r = .inputExhausted := by
  cases i with
  | read a => exact ⟨rfl, execRead_eq_fault ha h⟩
  | write a | load a => cases (withOperand_eq s _ ha).symm.trans h
  | store a => cases (storeOperand_eq s _ _ ha).symm.trans h
  | add a | subtract a | multiply a =>
    exact absurd ((exec_of_exactResult ha rfl).symm.trans h) (rangeCommit_ne_fault _ _ _)
  | divide a => exact absurd h (execDivide_ne_fault ha r)
  | branch a | halt a => cases h
  | branchZero a | branchNeg a => exact absurd h (branchIf_ne_fault _ _ _ _)

/-- R55, R123: the operand of a decoded word is an address, so the engine faults only at the end of the stream. -/
theorem engineStep_eq_fault {s : State} {r : Fault} (h : engineStep s = .fault r) :
    s.inNext = .endOfStream ∧ r = .inputExhausted := by
  by_cases hpc : s.pcValid
  · rw [engineStep_of_pcValid hpc] at h
    unfold runWord at h
    split at h
    · next i hd =>
      split at h
      · cases h
      · obtain ⟨-, hend⟩ := exec_eq_fault (addrValid_iff.2 (operand_bounds_of_decode hd)) h
        exact hend
    · cases h
  · cases (engineStep_of_pcInvalid hpc).symm.trans h

/-- R234: the capacity test keeps the loader's address inside the memory. -/
theorem loadValue_ne_fault {s : State} (hc : s.loadCount ≤ 100) (v : Int) (r : Fault) : loadValue s v ≠ .fault r := by
  intro h
  unfold loadValue at h
  split at h
  · cases h
  · split at h
    · split at h
      · cases h
      · next hfull =>
        have ha : addrValid s.loadCount := by
          rw [Config.loadCapacity_val] at hfull
          rw [addrValid_iff]
          omega
        rw [State.memWrite, if_pos ha] at h
        cases h
    · cases h

theorem loadStep_ne_fault {s : State} (hc : s.loadCount ≤ 100) (r : Fault) : loadStep s ≠ .fault r := by
  unfold loadStep
  split
  · exact loadValue_ne_fault hc _ r
  · nofun
  · nofun

/-- Settles O39: the addresses of a step are `ic` past its check, an operand of two digits, and the loader's count below
its capacity. -/
theorem noStepAccessesABadAddress : Obligations.NoStepAccessesABadAddress := by
  intro s hs h
  obtain ⟨-, hcount⟩ := hs.counts
  unfold step at h
  split at h
  · exact loadStep_ne_fault hcount _ h
  · cases h
  · cases h
  · obtain ⟨-, hr⟩ := engineStep_eq_fault h
    cases hr
  · cases h
  · cases h

end Sys2Proof.Machine
end

section
/-!
PROOFS of the family 30_encoding.md. The decoder and the encoder are inverse to each other: a word decodes to an
instruction exactly if it is the encoding of that instruction and the instruction is well-formed. The words that are no
instruction follow from the gaps in the numbers of R73.
-/

namespace Sys2Proof

/-- R72: a word of either sign is put together again from its two fields. -/
theorem opcField_opdField_eq (w : Int) : Config.opcDivisor * opcField w + opdField w = w :=
  Int.mul_tdiv_add_tmod w _

/-- R72, R78: the fields of an encoding are the instruction's number and operand. -/
theorem fields_of_encode {i : Instr} (h : i.wellFormed = true) :
    opcField (encode i) = opcodeNumber i.opcode ∧ opdField (encode i) = i.operand := by
  obtain ⟨-, hnonneg, hquot⟩ := Laws.EncodedIsWord.of_bounds i h
  obtain ⟨hopc, hopd⟩ := fields_of_nonneg hnonneg
  have hsum := opcField_opdField_eq (encode i)
  have henc : encode i = Config.opcDivisor * opcodeNumber i.opcode + i.operand := rfl
  rw [Config.opcDivisor_val] at hsum henc
  omega

/-- R76, R78: what decodes to `i` is the encoding of `i`, for a well-formed `i` and for no other. -/
theorem decode_eq_instr_iff_encode {w : Int} {i : Instr} :
    decode w = .instr i ↔ i.wellFormed = true ∧ encode i = w := by
  constructor
  · intro h
    obtain ⟨hopc, hopd⟩ := decode_eq_instr.1 h
    refine ⟨Instr.wellFormed_iff.2 (Machine.operand_bounds_of_decode h), ?_⟩
    rw [encode, hopc, hopd, opcField_opdField_eq]
  · rintro ⟨hwf, rfl⟩
    obtain ⟨hopc, hopd⟩ := fields_of_encode hwf
    exact decode_eq_instr.2 ⟨hopc.symm, hopd.symm⟩

/-- R73: the numbers of the table are four runs, 11 to 12, 21 to 22, 31 to 34 and 41 to 44, with these gaps around. -/
theorem opcodeOf_eq_none_iff_gap {n : Int} :
    opcodeOf n = none ↔
      n ≤ 10 ∨ (13 ≤ n ∧ n ≤ 20) ∨ (23 ≤ n ∧ n ≤ 30) ∨ (35 ≤ n ∧ n ≤ 40) ∨ 45 ≤ n := by
  simp only [opcodeOf, List.find?_eq_none, Opcode.all, List.forall_mem_cons, opcodeNumber, beq_iff_eq,
    List.not_mem_nil, false_implies, implies_true, and_true]
  omega

/-- R74: the gaps of the table as ranges of words; the quotient of a negative word lies in the lowest gap. -/
theorem decode_eq_invalidOpcode_iff_range {w : Int} :
    decode w = .invalidOpcode ↔
      w < 0 ∨ (0 ≤ w ∧ w ≤ 1099) ∨ (1300 ≤ w ∧ w ≤ 2099) ∨ (2300 ≤ w ∧ w ≤ 3099) ∨ (3500 ≤ w ∧ w ≤ 4099) ∨
        4500 ≤ w := by
  rw [decode_eq_invalidOpcode, ← opcodeOf_eq_none, opcodeOf_eq_none_iff_gap]
  rcases lt_or_ge w 0 with hneg | hnonneg
  · obtain ⟨hopc, -⟩ := fields_of_neg hneg
    omega
  · obtain ⟨hopc, -⟩ := fields_of_nonneg hnonneg
    omega

/-- Settles O1: the encoding's fields are the instruction's own number and operand. -/
theorem decodeOfEncodeIsTheInstruction : Obligations.DecodeOfEncodeIsTheInstruction :=
  fun _ hwf => decode_eq_instr_iff_encode.2 ⟨hwf, rfl⟩

/-- Settles O2: the same equivalence read from the word. -/
theorem encodeOfDecodeIsTheWord : Obligations.EncodeOfDecodeIsTheWord :=
  fun _ _ => decode_eq_instr_iff_encode.1

/-- Settles O3: the ranges are those of every integer, so in particular of every Word. -/
theorem invalidWordsAreTheListedOnes : Obligations.InvalidWordsAreTheListedOnes :=
  fun _ _ _ => decode_eq_invalidOpcode_iff_range

/-- Settles O4: twelve of the words are encodings of well-formed instructions, and four lie in the ranges of R74. -/
theorem sampleWordsDecode : Obligations.SampleWordsDecode := by
  unfold Obligations.SampleWordsDecode
  simp only [decode_eq_instr_iff_encode, decode_eq_invalidOpcode_iff_range]
  decide

end Sys2Proof
end

section
/-!
PROOFS of the family 40_engine_cycle.md, the parts of a step: the PC check, the fetch, and what runs the fetched word.
-/

namespace Sys2Proof.Machine

theorem pcValid_iff {s : State} : s.pcValid = true ↔ 0 ≤ s.ic ∧ s.ic < 100 := addrValid_iff (a := s.ic)

theorem runWord_of_invalid {s : State} {w : Int} (hd : decode w = .invalidOpcode) :
    runWord s w = .next ((s.latch w).raiseAbend .invalidOpcode) := by
  simp [runWord, hd, abend]

/-- R103, R104: a word that is run, and no READ that waits, stays in the fetch's registers. -/
theorem runWord_latches {s t : State} {w : Int} (hwait : ∀ a, decode w = .instr (.read a) → s.inNext ≠ .pending)
    (h : runWord s w = .next t) : t.ir = w ∧ t.opc = opcField w ∧ t.opd = opdField w := by
  rcases runWord_eq_next h with ⟨-, rfl⟩ | ⟨i, hd, ⟨hheld, -⟩ | ⟨-, hx⟩⟩
  · exact ⟨rfl, rfl, rfl⟩
  · obtain ⟨⟨a, rfl⟩, hpending⟩ := heldBy_eq_true hheld
    exact absurd hpending (hwait a hd)
  · exact exec_keeps_fetch_registers hx

/-- Settles O6: an instruction leaves the registers that the fetch has written. -/
theorem everyFetchedWordIsLatched : Obligations.EveryFetchedWordIsLatched := by
  intro s t w hp hw hwait h
  rw [step_of_fetched hp hw] at h
  exact runWord_latches hwait h

/-- Settles O5: the fetch's fields are the quotient and the remainder by the value of `Config.opcDivisor`. -/
theorem stepRunsTheDecodedInstruction : Obligations.StepRunsTheDecodedInstruction := by
  intro s w i hp hw hd hh
  exact (step_of_fetched hp hw).trans (runWord_of_not_held hd hh)

/-- Settles O7. -/
theorem failedPcCheckAbends : Obligations.FailedPcCheckAbends := by
  intro s hp hic
  have hpc : ¬ s.pcValid := by
    rw [pcValid_iff]
    omega
  exact (step_of_running hp).trans (engineStep_of_pcInvalid hpc)

/-- Settles O8. -/
theorem invalidWordAbends : Obligations.InvalidWordAbends := by
  intro s w hp hw hd
  exact (step_of_fetched hp hw).trans (runWord_of_invalid hd)

/-- Settles O9: a step starts from one of three phases, and neither end of a run is among them. -/
theorem anEndedRunHasNoStep : Obligations.AnEndedRunHasNoStep := by
  intro s hend t h
  have hne : s.phase ≠ .loading ∧ s.phase ≠ .loaded ∧ s.phase ≠ .run .running := by
    rcases hend with hp | ⟨k, hp⟩ <;> simp [hp]
  obtain ⟨hloading, hloaded, hrunning⟩ := hne
  rcases step_eq_next h with ⟨hp, -⟩ | ⟨hp, -⟩ | ⟨hp, -⟩
  · exact hloading hp
  · exact hloaded hp
  · exact hrunning hp

end Sys2Proof.Machine
end

section
/-!
PROOFS of the family 40_engine_cycle.md, the PC advance (R107).
-/

namespace Sys2Proof.Machine

/-- Where `ic` stands after instruction `i` has completed from state `s`. -/
def icAfter (i : Instr) (s : State) : Int :=
  match i with
  | .branch a => a
  | .branchZero a => if s.acc = 0 then a else s.ic + 1
  | .branchNeg a => if s.acc < 0 then a else s.ic + 1
  | .halt _ => s.ic
  | _ => s.ic + 1

/-- R107, R108: an instruction that waits for nothing and raises no ABEND leaves `ic` where `icAfter` says. -/
theorem exec_ic {i : Instr} {s t : State} (hh : s.heldBy i = false) (h : exec i s = .next t)
    (hgood : ∀ k, t.phase ≠ .run (.abended k)) : t.ic = icAfter i s := by
  cases i with
  | read a =>
    rcases execRead_eq_next h with ⟨hn, -⟩ | ⟨v, -, ⟨-, -, rfl⟩ | ⟨-, rfl⟩⟩
    · simp [State.heldBy, hn] at hh
    · rfl
    · exact absurd rfl (hgood _)
  | write a => obtain ⟨-, rfl⟩ := execWrite_eq_next h; rfl
  | store a => obtain ⟨-, rfl⟩ := execStore_eq_next h; rfl
  | load a => obtain ⟨-, rfl⟩ := execLoad_eq_next h; rfl
  | add a | subtract a | multiply a =>
    obtain ⟨r, -, -, ⟨-, rfl⟩ | ⟨-, rfl⟩ | ⟨-, rfl⟩⟩ := exec_arith_eq_next rfl h
    · rfl
    · exact absurd rfl (hgood _)
    · exact absurd rfl (hgood _)
  | divide a =>
    obtain ⟨-, ⟨-, rfl⟩ | ⟨-, rfl⟩⟩ := execDivide_eq_next h
    · exact absurd rfl (hgood _)
    · rfl
  | branch a => cases h; rfl
  | branchZero a => cases branchIf_eq_next.1 h; simp [icAfter, accIsZero_iff]
  | branchNeg a => cases branchIf_eq_next.1 h; simp [icAfter, accIsNegative_iff]
  | halt a => cases h; rfl

/-- The fetch decides nothing about a wait for input. -/
theorem heldBy_latch (s : State) (w : Int) (i : Instr) : (s.latch w).heldBy i = s.heldBy i := by
  cases i <;> rfl

/-- Settles O26: the fetch leaves `acc` and `ic`, by which the instruction goes on. -/
theorem pcAfterEachInstruction : Obligations.PcAfterEachInstruction := by
  intro s t w i hp hw hd hh h hgood
  rw [step_of_fetched hp hw, runWord_of_not_held hd hh] at h
  refine (exec_ic ((heldBy_latch s w i).trans hh) h hgood).trans ?_
  cases i <;> rfl

end Sys2Proof.Machine
end

section
/-!
PROOFS of the family 40_engine_cycle.md, forward progress: no operation that a step is made of is refused, and the engine
faults only at a READ for which the stream has ended.
-/

namespace Sys2Proof.Machine

theorem withOperand_ne_refused {s : State} {a : Int} {go : Int → Result} {r : Refusal}
    (hgo : ∀ v, go v ≠ .refused r) : withOperand s a go ≠ .refused r := by
  unfold withOperand
  cases s.memRead a with
  | none => nofun
  | some v => exact hgo v

theorem storeOperand_ne_refused {s : State} {a v : Int} {go : State → Result} {r : Refusal}
    (hgo : ∀ t, go t ≠ .refused r) : storeOperand s a v go ≠ .refused r := by
  unfold storeOperand
  cases s.memWrite a v with
  | none => nofun
  | some t => exact hgo t

theorem rangeCommit_ne_refused (s : State) (v : Int) (r : Refusal) : rangeCommit s v ≠ .refused r := by
  unfold rangeCommit
  cases overflowDetect v <;> nofun

theorem branchIf_ne_refused (s : State) (c : Bool) (a : Int) (r : Refusal) : branchIf s c a ≠ .refused r := by
  cases c <;> nofun

theorem execRead_ne_refused (s : State) (a : Int) (r : Refusal) : execRead a s ≠ .refused r := by
  unfold execRead
  cases s.inNext with
  | value v =>
    simp only [readValue]
    split
    · exact storeOperand_ne_refused nofun
    · nofun
  | pending | endOfStream => nofun

theorem execDivide_ne_refused (s : State) (a : Int) (r : Refusal) : execDivide a s ≠ .refused r :=
  withOperand_ne_refused fun d => by split <;> nofun

/-- R105: each of the twelve instructions has a meaning. -/
theorem exec_ne_refused (i : Instr) (s : State) (r : Refusal) : exec i s ≠ .refused r := by
  cases i with
  | read a => exact execRead_ne_refused s a r
  | write a | load a => exact withOperand_ne_refused nofun
  | store a => exact storeOperand_ne_refused nofun
  | add a | subtract a | multiply a => exact withOperand_ne_refused fun v => rangeCommit_ne_refused s _ r
  | divide a => exact execDivide_ne_refused s a r
  | branch a | halt a => nofun
  | branchZero a | branchNeg a => exact branchIf_ne_refused s _ a r

/-- R105, R106: every word is an instruction or ends the run. -/
theorem runWord_ne_refused (s : State) (w : Int) (r : Refusal) : runWord s w ≠ .refused r := by
  unfold runWord
  split
  · split
    · nofun
    · exact exec_ne_refused _ _ r
  · nofun

theorem engineStep_ne_refused (s : State) (r : Refusal) : engineStep s ≠ .refused r := by
  by_cases hpc : s.pcValid
  · rw [engineStep_of_pcValid hpc]
    exact runWord_ne_refused s _ r
  · rw [engineStep_of_pcInvalid hpc]
    nofun

theorem loadValue_ne_refused (s : State) (v : Int) (r : Refusal) : loadValue s v ≠ .refused r := by
  unfold loadValue
  split
  · nofun
  · split
    · split
      · nofun
      · split <;> nofun
    · nofun

theorem loadStep_ne_refused (s : State) (r : Refusal) : loadStep s ≠ .refused r := by
  unfold loadStep
  split
  · exact loadValue_ne_refused s _ r
  · nofun
  · nofun

/-- Settles O38, phase by phase: only the loader and the engine do more than answer. -/
theorem noStepIsRefused : Obligations.NoStepIsRefused := by
  intro s r
  unfold step
  split
  · exact loadStep_ne_refused s r
  · nofun
  · nofun
  · exact engineStep_ne_refused s r
  · nofun
  · nofun

/-- R55, R123: the fetched word of an engine step that faults is a READ, at the end of the stream. -/
theorem engineStep_fault_is_read {s : State} {r : Fault} (h : engineStep s = .fault r) :
    ∃ w a, s.memRead s.ic = some w ∧ decode w = .instr (.read a) ∧ s.inNext = .endOfStream := by
  obtain ⟨hend, -⟩ := engineStep_eq_fault h
  by_cases hpc : s.pcValid
  · rw [engineStep_of_pcValid hpc] at h
    cases hd : decode (s.mem.get s.ic.toNat) with
    | invalidOpcode => cases (runWord_of_invalid hd).symm.trans h
    | instr i =>
      have hfree : s.heldBy i = false := by
        by_contra hheld
        obtain ⟨-, hpending⟩ := heldBy_eq_true (eq_true_of_ne_false hheld)
        cases hpending.symm.trans hend
      rw [runWord_of_not_held hd hfree] at h
      obtain ⟨hread, -⟩ := exec_eq_fault (addrValid_iff.2 (operand_bounds_of_decode hd)) h
      exact ⟨_, i.operand, s.memRead_of_valid hpc, hread ▸ hd, hend⟩
  · cases (engineStep_of_pcInvalid hpc).symm.trans h

/-- Settles O37: no step is refused, and the only fault of the engine is a READ at the end of the stream, where no value is
left to take. -/
theorem everyOtherStepIsEnabled : Obligations.EveryOtherStepIsEnabled := by
  intro s hp hread
  cases hstep : step s with
  | next t => exact ⟨t, rfl⟩
  | refused r => exact absurd hstep (noStepIsRefused s r)
  | fault r =>
    obtain ⟨w, a, hw, hd, hend⟩ := engineStep_fault_is_read ((step_of_running hp).symm.trans hstep)
    obtain ⟨hnone, -⟩ := State.inNext_eq_endOfStream.1 hend
    exact absurd (hread w a hw hd) (not_lt.2 (List.getElem?_eq_none_iff.1 hnone))

end Sys2Proof.Machine
end

section
/-!
PROOFS of the family 41_io.md. What READ does for each of the three things IN can have, what WRITE does, and the digits of
a rendered Word.
-/

namespace Sys2Proof

/-- R73, R78: the hundred of each operation code, from `00` to `99`, decodes to that operation with the operand. -/
theorem decode_opcodeNumber_add (op : Opcode) {a : Int} (h0 : 0 ≤ a) (h99 : a ≤ 99) :
    decode (Config.opcDivisor * opcodeNumber op + a) = .instr (op.withOperand a) := by
  have hwf : (op.withOperand a).wellFormed = true := by
    rw [Instr.wellFormed_iff, Opcode.operand_withOperand]
    omega
  refine decode_eq_instr_iff_encode.2 ⟨hwf, ?_⟩
  rw [encode, Opcode.opcode_withOperand, Opcode.operand_withOperand]

theorem digit_lt (i w : Nat) : digit i w < 10 := Nat.mod_lt _ (by decide)

/-- R10: a magnitude of at most four digits is their sum, each in its place. -/
theorem eq_sum_of_digits {w : Nat} (h : w < 10000) :
    w = 1000 * digit 3 w + 100 * digit 2 w + 10 * digit 1 w + digit 0 w := by
  simp only [digit, Nat.reducePow]
  omega

end Sys2Proof

namespace Sys2Proof.Machine

theorem addrValid_of_le {a : Int} (h0 : 0 ≤ a) (h99 : a ≤ 99) : addrValid a := by
  rw [addrValid_iff]
  omega

/-- R121: the Word that arrives is taken, stored and echoed. -/
theorem execRead_of_word {s : State} {a v : Int} (ha : addrValid a) (hn : s.inNext = .value v) (hv : inWordRange v) :
    execRead a s = .next ((s.inTake.setMem (s.mem.set a.toNat v)).emit (.echo v)).advance := by
  simp only [execRead, hn, readValue, if_pos hv, storeOperand_eq _ _ _ ha, complete, State.inTake_mem]

/-- R121: a value that is no Word is taken before the ABEND. -/
theorem execRead_of_nonWord {s : State} {a v : Int} (hn : s.inNext = .value v) (hv : ¬ inWordRange v) :
    execRead a s = .next (s.inTake.raiseAbend .illegalInput) := by
  simp only [execRead, hn, readValue, if_neg hv, abend]

/-- R123. -/
theorem execRead_of_endOfStream {s : State} {a : Int} (hn : s.inNext = .endOfStream) :
    execRead a s = .fault .inputExhausted := by
  simp only [execRead, hn]

/-- R122. -/
theorem execWrite_of_addrValid {s : State} {a : Int} (ha : addrValid a) :
    execWrite a s = .next (s.emit (.write (s.mem.get a.toNat))).advance :=
  withOperand_eq s _ ha

/-- R112: an instruction that is held leaves the state it was fetched in, the fetch's registers too. -/
theorem runWord_of_held {s : State} {w : Int} {i : Instr} (hd : decode w = .instr i) (hh : s.heldBy i = true) :
    runWord s w = .next s := by
  simp only [runWord, hd, if_pos hh]

/-- R121: a READ is held exactly while the host has yet to supply its value. -/
theorem heldBy_read_iff {s : State} {a : Int} : s.heldBy (.read a) = true ↔ s.inNext = .pending := beq_iff_eq

/-- Settles O13: the write to memory is what an address reads back, and the other updates leave the memory. -/
theorem readStoresAndEchoesTheNextWord : Obligations.ReadStoresAndEchoesTheNextWord := by
  intro s a v h0 h99 hv hlow hhigh
  have ha : addrValid a := addrValid_of_le h0 h99
  refine ⟨decode_opcodeNumber_add .read h0 h99, _,
    execRead_of_word ha (State.inNext_eq_value.2 hv) (inWordRange_iff.2 ⟨hlow, hhigh⟩), fun b => ?_, rfl⟩
  exact State.memRead_setMem_set s.inTake v b ha

/-- Settles O15. -/
theorem writeEmitsTheOperandWord : Obligations.WriteEmitsTheOperandWord := by
  intro s a h0 h99
  have ha : addrValid a := addrValid_of_le h0 h99
  exact ⟨decode_opcodeNumber_add .write h0 h99, _, s.memRead_of_valid ha, execWrite_of_addrValid ha⟩

/-- Settles O57: the four digits are those of the magnitude, which a Word's range keeps below 10000. -/
theorem aRenderedWordIsItsSignAndFourDigits : Obligations.ARenderedWordIsItsSignAndFourDigits := by
  intro v hlow hhigh
  have hsum := eq_sum_of_digits (w := v.natAbs) (by omega)
  exact ⟨_, _, _, _, digit_lt 3 _, digit_lt 2 _, digit_lt 1 _, digit_lt 0 _, hsum, rfl⟩

/-- Settles O10. -/
theorem waitingReadChangesNothing : Obligations.WaitingReadChangesNothing := by
  intro s w a hp hw hd hn
  exact (step_of_fetched hp hw).trans (runWord_of_held hd (heldBy_read_iff.2 hn))

/-- Settles O12: the end of the stream holds no READ, so the READ runs; and the fetch before it leaves what IN has. -/
theorem readAtEndOfStreamIsStuck : Obligations.ReadAtEndOfStreamIsStuck := by
  intro s w a hp hw hd hn
  have hfree : s.heldBy (.read a) = false := by
    rw [Bool.eq_false_iff, ne_eq, heldBy_read_iff, hn]
    nofun
  rw [step_of_fetched hp hw, runWord_of_not_held hd hfree]
  exact execRead_of_endOfStream ((s.inNext_latch w).trans hn)

/-- Settles O14. -/
theorem readOfANonWordAbends : Obligations.ReadOfANonWordAbends := by
  intro s a v hv hrange
  have hnot : ¬ inWordRange v := by
    rw [inWordRange_iff]
    omega
  exact execRead_of_nonWord (State.inNext_eq_value.2 hv) hnot

end Sys2Proof.Machine
end

section
/-!
PROOFS of the family 42_load_store.md. LOAD and STORE of an operand inside the memory: the one Word each of them copies.
-/

namespace Sys2Proof.Machine

/-- R130. -/
theorem execLoad_of_addrValid {s : State} {a : Int} (ha : addrValid a) :
    execLoad a s = .next (s.setAcc (s.mem.get a.toNat)).advance :=
  withOperand_eq s _ ha

/-- R131. -/
theorem execStore_of_addrValid {s : State} {a : Int} (ha : addrValid a) :
    execStore a s = .next (s.setMem (s.mem.set a.toNat s.acc)).advance :=
  storeOperand_eq s s.acc complete ha

/-- Settles O16. -/
theorem loadCopiesTheOperandWord : Obligations.LoadCopiesTheOperandWord := by
  intro s a h0 h99
  have ha : addrValid a := addrValid_of_le h0 h99
  exact ⟨decode_opcodeNumber_add .load h0 h99, _, s.memRead_of_valid ha, execLoad_of_addrValid ha⟩

/-- Settles O17: the write to memory is what an address reads back, and the advance leaves the memory. -/
theorem storeCopiesTheAccumulator : Obligations.StoreCopiesTheAccumulator := by
  intro s a h0 h99
  have ha : addrValid a := addrValid_of_le h0 h99
  refine ⟨decode_opcodeNumber_add .store h0 h99, _, execStore_of_addrValid ha, fun b => ?_, rfl⟩
  exact State.memRead_setMem_set s s.acc b ha

end Sys2Proof.Machine
end

section
/-!
PROOFS of the family 43_arithmetic.md. The three range-checked operations are one rule over their exact results; DIVIDE
has a rule for each kind of divisor.
-/

namespace Sys2Proof.Machine

/-- R141, for each of R142 to R144: the exact result is committed, or is below or above the Words. -/
theorem exec_commits_or_abends {i : Instr} {s : State} {r : Int} (ha : addrValid i.operand)
    (hr : exactResult i s.acc (s.mem.get i.operand.toNat) = some r) :
    (-9999 ≤ r → r ≤ 9999 → exec i s = .next (s.setAcc r).advance) ∧
    (r < -9999 → exec i s = .next (s.raiseAbend .underflow)) ∧
    (9999 < r → exec i s = .next (s.raiseAbend .overflow)) := by
  rw [exec_of_exactResult ha hr]
  refine ⟨fun hlow hhigh => ?_, fun hlow => ?_, fun hhigh => ?_⟩
  · exact rangeCommit_of_word s (inWordRange_iff.2 ⟨hlow, hhigh⟩)
  · exact rangeCommit_of_low s hlow
  · exact rangeCommit_of_high s hhigh

/-- R145: the quotient is committed with no range check. -/
theorem execDivide_of_ne_zero {s : State} {a : Int} (ha : addrValid a) (hd : s.mem.get a.toNat ≠ 0) :
    execDivide a s = .next (s.setAcc (tdiv s.acc (s.mem.get a.toNat))).advance :=
  (withOperand_eq s _ ha).trans (if_neg hd)

/-- R145: a zero divisor. -/
theorem execDivide_of_zero {s : State} {a : Int} (ha : addrValid a) (hd : s.mem.get a.toNat = 0) :
    execDivide a s = .next (s.raiseAbend .divisionByZero) :=
  (withOperand_eq s _ ha).trans (if_pos hd)

/-- Settles O18. -/
theorem addCommitsTheExactSumOrAbends : Obligations.AddCommitsTheExactSumOrAbends := by
  intro s a h0 h99
  have ha : addrValid a := addrValid_of_le h0 h99
  exact ⟨decode_opcodeNumber_add .add h0 h99, _, s.memRead_of_valid ha, exec_commits_or_abends (i := .add a) ha rfl⟩

/-- Settles O19. -/
theorem subtractCommitsTheExactDifferenceOrAbends : Obligations.SubtractCommitsTheExactDifferenceOrAbends := by
  intro s a h0 h99
  have ha : addrValid a := addrValid_of_le h0 h99
  exact ⟨decode_opcodeNumber_add .subtract h0 h99, _, s.memRead_of_valid ha,
    exec_commits_or_abends (i := .subtract a) ha rfl⟩

/-- Settles O20. -/
theorem multiplyCommitsTheExactProductOrAbends : Obligations.MultiplyCommitsTheExactProductOrAbends := by
  intro s a h0 h99
  have ha : addrValid a := addrValid_of_le h0 h99
  exact ⟨decode_opcodeNumber_add .multiply h0 h99, _, s.memRead_of_valid ha,
    exec_commits_or_abends (i := .multiply a) ha rfl⟩

/-- Settles O21: the quotient that DIVIDE commits is the one of R11's formula. -/
theorem divideCommitsTheTruncatedQuotientOrAbends : Obligations.DivideCommitsTheTruncatedQuotientOrAbends := by
  intro s a h0 h99
  have ha : addrValid a := addrValid_of_le h0 h99
  refine ⟨decode_opcodeNumber_add .divide h0 h99, _, s.memRead_of_valid ha, fun hd => ?_, fun hd => ?_⟩
  · rw [← tdiv_eq_sign_mul]
    exact execDivide_of_ne_zero ha hd
  · exact execDivide_of_zero ha hd

/-- Settles O40: a quotient is no larger than its dividend, and a zero divisor leaves the accumulator. -/
theorem divideStaysInTheWordRange : Obligations.DivideStaysInTheWordRange := by
  intro s t a ⟨_, hacc, _⟩ h
  obtain ⟨-, ⟨-, rfl⟩ | ⟨-, rfl⟩⟩ := execDivide_eq_next h
  · obtain ⟨hlow, hhigh⟩ := inWordRange_iff.1 hacc
    exact ⟨hlow, hhigh, .inr rfl⟩
  · obtain ⟨hlow, hhigh⟩ := inWordRange_iff.1 (tdiv_inWordRange (s.mem.get a.toNat) hacc)
    exact ⟨hlow, hhigh, .inl rfl⟩

end Sys2Proof.Machine
end

section
/-!
PROOFS of the family 44_control.md. The conditional branches are one rule for each path; BRANCH and HALT have one path.
-/

namespace Sys2Proof.Machine

theorem branchIf_of_taken {s : State} {c : Bool} (a : Int) (hc : c) : branchIf s c a = .next (s.setIc a) :=
  branchIf_eq_next.2 (by rw [if_pos hc])

theorem branchIf_of_not_taken {s : State} {c : Bool} (a : Int) (hc : ¬ c) :
    branchIf s c a = .next (s.setIc (s.ic + 1)) :=
  branchIf_eq_next.2 (by rw [if_neg hc])

/-- R161. -/
theorem exec_branch (s : State) (a : Int) : exec (.branch a) s = .next (s.setIc a) := rfl

/-- R162, the jump. -/
theorem exec_branchZero_of_zero {s : State} (a : Int) (h : s.acc = 0) :
    exec (.branchZero a) s = .next (s.setIc a) :=
  branchIf_of_taken a (accIsZero_iff.2 h)

/-- R162: 1 and -1 fall through alike. -/
theorem exec_branchZero_of_ne_zero {s : State} (a : Int) (h : s.acc ≠ 0) :
    exec (.branchZero a) s = .next (s.setIc (s.ic + 1)) :=
  branchIf_of_not_taken a (mt accIsZero_iff.1 h)

/-- R163, the jump. -/
theorem exec_branchNeg_of_neg {s : State} (a : Int) (h : s.acc < 0) :
    exec (.branchNeg a) s = .next (s.setIc a) :=
  branchIf_of_taken a (accIsNegative_iff.2 h)

/-- R163: zero is not negative, so it falls through. -/
theorem exec_branchNeg_of_nonneg {s : State} (a : Int) (h : 0 ≤ s.acc) :
    exec (.branchNeg a) s = .next (s.setIc (s.ic + 1)) :=
  branchIf_of_not_taken a (mt accIsNegative_iff.1 (not_lt.2 h))

/-- R164, R75: the operand plays no part. -/
theorem exec_halt (s : State) (a : Int) : exec (.halt a) s = .next ((s.emit .halted).setRun .halted) := rfl

/-- Settles O22. -/
theorem branchJumps : Obligations.BranchJumps := by
  intro s a h0 h99
  exact ⟨decode_opcodeNumber_add .branch h0 h99, exec_branch s a⟩

/-- Settles O23: the model's condition is that `acc` is zero, and each path writes `ic` alone. -/
theorem branchZeroJumpsIffZero : Obligations.BranchZeroJumpsIffZero := by
  intro s a h0 h99
  exact ⟨decode_opcodeNumber_add .branchZero h0 h99, exec_branchZero_of_zero a, exec_branchZero_of_ne_zero a⟩

/-- Settles O24: the model's condition is that `acc` is negative, and each path writes `ic` alone. -/
theorem branchNegJumpsIffNegative : Obligations.BranchNegJumpsIffNegative := by
  intro s a h0 h99
  exact ⟨decode_opcodeNumber_add .branchNeg h0 h99, exec_branchNeg_of_neg a, exec_branchNeg_of_nonneg a⟩

/-- Settles O25. -/
theorem haltEndsTheRun : Obligations.HaltEndsTheRun := by
  intro s a h0 h99
  exact ⟨decode_opcodeNumber_add .halt h0 h99, exec_halt s a⟩

end Sys2Proof.Machine
end

section
/-!
PROOFS of the family 60_exceptions.md, the ABENDs of a run. Every ABEND an engine step can end in, once, as a relation
with one named constructor a cause: the state it is raised in is what R202 speaks of, the cause what R201 and R205 do.
-/

namespace Sys2Proof.Machine

/-- Instruction `i`, run in state `s`, ends in an ABEND of kind `k`, in state `t` (60_exceptions.md R201). -/
inductive ExecAbends (i : Instr) (s : State) : AbendKind → State → Prop
  /-- READ has taken a value that is no Word. -/
  | illegalInput {v : Int} (hi : i = .read i.operand) (hn : s.inNext = .value v) (hv : ¬ inWordRange v) :
      ExecAbends i s .illegalInput (s.inTake.raiseAbend .illegalInput)
  | divisionByZero (hi : i = .divide i.operand) (hd : s.memRead i.operand = some 0) :
      ExecAbends i s .divisionByZero (s.raiseAbend .divisionByZero)
  | underflow {v r : Int} (hm : s.memRead i.operand = some v) (hr : exactResult i s.acc v = some r)
      (hlow : r < -9999) : ExecAbends i s .underflow (s.raiseAbend .underflow)
  | overflow {v r : Int} (hm : s.memRead i.operand = some v) (hr : exactResult i s.acc v = some r)
      (hhigh : 9999 < r) : ExecAbends i s .overflow (s.raiseAbend .overflow)

theorem raiseAbend_phase_eq_abended {s : State} {j k : AbendKind} :
    (s.raiseAbend j).phase = .run (.abended k) ↔ j = k := by
  simp

theorem arith_abends {i : Instr} {s t : State} {k : AbendKind} (hi : (exactResult i 0 0).isSome)
    (hp : s.phase = .run .running) (h : exec i s = .next t) (hk : t.phase = .run (.abended k)) :
    ExecAbends i s k t := by
  obtain ⟨r, hr, ha, ⟨-, rfl⟩ | ⟨hlow, rfl⟩ | ⟨hhigh, rfl⟩⟩ := exec_arith_eq_next hi h
  · cases hp.symm.trans hk
  · obtain rfl := raiseAbend_phase_eq_abended.1 hk
    exact .underflow (s.memRead_of_valid ha) hr hlow
  · obtain rfl := raiseAbend_phase_eq_abended.1 hk
    exact .overflow (s.memRead_of_valid ha) hr hhigh

theorem exec_abends {i : Instr} {s t : State} {k : AbendKind} (hp : s.phase = .run .running)
    (h : exec i s = .next t) (hk : t.phase = .run (.abended k)) : ExecAbends i s k t := by
  cases i with
  | read a =>
    rcases execRead_eq_next h with ⟨-, rfl⟩ | ⟨v, hn, ⟨-, -, rfl⟩ | ⟨hv, rfl⟩⟩
    · cases hp.symm.trans hk
    · cases hp.symm.trans hk
    · obtain rfl := raiseAbend_phase_eq_abended.1 hk
      exact .illegalInput rfl hn hv
  | divide a =>
    obtain ⟨ha, ⟨h0, rfl⟩ | ⟨-, rfl⟩⟩ := execDivide_eq_next h
    · obtain rfl := raiseAbend_phase_eq_abended.1 hk
      exact .divisionByZero rfl (State.memRead_eq_some.2 ⟨ha, h0⟩)
    · cases hp.symm.trans hk
  | add a | subtract a | multiply a => exact arith_abends rfl hp h hk
  | write a => obtain ⟨-, rfl⟩ := execWrite_eq_next h; cases hp.symm.trans hk
  | store a => obtain ⟨-, rfl⟩ := execStore_eq_next h; cases hp.symm.trans hk
  | load a => obtain ⟨-, rfl⟩ := execLoad_eq_next h; cases hp.symm.trans hk
  | branch a => cases h; cases hp.symm.trans hk
  | branchZero a | branchNeg a => cases branchIf_eq_next.1 h; cases hp.symm.trans hk
  | halt a => cases h; cases hk

/-- A step of the engine from state `s` ends in an ABEND of kind `k`, in state `t`; the constructors in the order of the
checks (60_exceptions.md R205). -/
inductive StepAbends (s : State) : AbendKind → State → Prop
  | failsPcCheck (hpc : ¬ s.pcValid) :
      StepAbends s .addressabilityError (s.raiseAbend .addressabilityError)
  | meetsInvalidWord {w : Int} (hw : s.memRead s.ic = some w) (hd : decode w = .invalidOpcode) :
      StepAbends s .invalidOpcode ((s.latch w).raiseAbend .invalidOpcode)
  | executes {w : Int} {i : Instr} {k : AbendKind} {t : State} (hw : s.memRead s.ic = some w)
      (hd : decode w = .instr i) (hx : ExecAbends i (s.latch w) k t) : StepAbends s k t

theorem step_abends {s t : State} {k : AbendKind} (hp : s.phase = .run .running) (h : step s = .next t)
    (hk : t.phase = .run (.abended k)) : StepAbends s k t := by
  rcases step_running_eq_next hp h with ⟨hpc, rfl⟩ | ⟨w, hw, ⟨hd, rfl⟩ | ⟨i, hd, ⟨-, rfl⟩ | ⟨-, hx⟩⟩⟩
  · obtain rfl := raiseAbend_phase_eq_abended.1 hk
    exact .failsPcCheck hpc
  · obtain rfl := raiseAbend_phase_eq_abended.1 hk
    exact .meetsInvalidWord hw hd
  · cases hp.symm.trans hk
  · exact .executes hw hd (exec_abends hp hx hk)

/-- R202: an aborting instruction writes the run state and the event, and READ the stream position. -/
theorem ExecAbends.precise {i : Instr} {s t : State} {k : AbendKind} (h : ExecAbends i s k t) :
    k ≠ .addressabilityError ∧
    t = { s with
      phase := .run (.abended k), out := s.out ++ [.abend k],
      inPos := if k = .illegalInput then s.inPos + 1 else s.inPos } := by
  cases h with
  | illegalInput | divisionByZero | underflow | overflow => exact ⟨nofun, rfl⟩

/-- Settles O27: the PC check comes before the fetch, every other ABEND after it, and the fetch writes its own three
registers alone. -/
theorem abendsArePrecise : Obligations.AbendsArePrecise := by
  intro s t k hp h hk
  cases step_abends hp h hk with
  | failsPcCheck => exact ⟨rfl, fun _ => ⟨rfl, rfl, rfl⟩, fun hne => absurd rfl hne⟩
  | meetsInvalidWord hw => exact ⟨rfl, nofun, fun _ => ⟨hw, rfl, rfl⟩⟩
  | executes hw _ hx =>
    obtain ⟨hne, rfl⟩ := hx.precise
    exact ⟨rfl, fun heq => absurd heq hne, fun _ => ⟨hw, rfl, rfl⟩⟩

/-- R142 to R144: the instructions that have an exact result, and which. -/
theorem exactResult_eq_some {i : Instr} {acc v r : Int} (h : exactResult i acc v = some r) :
    (i = .add i.operand ∧ r = acc + v) ∨ (i = .subtract i.operand ∧ r = acc - v) ∨
      (i = .multiply i.operand ∧ r = acc * v) := by
  cases i with
  | add a => exact .inl ⟨rfl, (Option.some.inj h).symm⟩
  | subtract a => exact .inr (.inl ⟨rfl, (Option.some.inj h).symm⟩)
  | multiply a => exact .inr (.inr ⟨rfl, (Option.some.inj h).symm⟩)
  | read | write | store | load | divide | branch | branchZero | branchNeg | halt => cases h

/-- R201: the four kinds an instruction can raise, each with its cause. -/
theorem ExecAbends.cause {i : Instr} {s t : State} {k : AbendKind} (h : ExecAbends i s k t) :
    (∃ a v, k = .illegalInput ∧ i = .read a ∧ s.stream[s.inPos]? = some v ∧ (v < -9999 ∨ 9999 < v)) ∨
    (∃ a, k = .divisionByZero ∧ i = .divide a ∧ s.memRead a = some 0) ∨
    (∃ a v r, s.memRead a = some v ∧
      ((i = .add a ∧ r = s.acc + v) ∨ (i = .subtract a ∧ r = s.acc - v) ∨ (i = .multiply a ∧ r = s.acc * v)) ∧
      ((k = .overflow ∧ 9999 < r) ∨ (k = .underflow ∧ r < -9999))) := by
  cases h with
  | illegalInput hi hn hv =>
    rw [inWordRange_iff] at hv
    exact .inl ⟨_, _, rfl, hi, State.inNext_eq_value.1 hn, by omega⟩
  | divisionByZero hi hd => exact .inr (.inl ⟨_, rfl, hi, hd⟩)
  | underflow hm hr hlow => exact .inr (.inr ⟨_, _, _, hm, exactResult_eq_some hr, .inr ⟨rfl, hlow⟩⟩)
  | overflow hm hr hhigh => exact .inr (.inr ⟨_, _, _, hm, exactResult_eq_some hr, .inl ⟨rfl, hhigh⟩⟩)

/-- Settles O28: the fetch leaves `acc`, memory and the stream, so the instruction's cause is found in the state before
the step. -/
theorem everyAbendHasItsCause : Obligations.EveryAbendHasItsCause := by
  intro s t k hp h hk
  cases step_abends hp h hk with
  | failsPcCheck hpc =>
    rw [pcValid_iff] at hpc
    exact .inl ⟨rfl, by omega⟩
  | meetsInvalidWord hw hd => exact .inr ⟨_, hw, .inl ⟨rfl, hd⟩⟩
  | executes hw hd hx =>
    refine .inr ⟨_, hw, .inr ?_⟩
    simp only [hd, Decoded.instr.injEq]
    exact hx.cause

end Sys2Proof.Machine
end

section
/-!
PROOFS of the family 60_exceptions.md, the host's moves: supplying input and ending the stream.
-/

namespace Sys2Proof.Machine

/-- R37: until the stream has ended, what the host supplies goes behind the values supplied so far. -/
theorem supply_of_not_ended {s : State} (vs : List Int) (h : s.streamEnded = false) :
    s.supply vs = s.appendInput vs := by
  simp [State.supply, State.appendInput, h]

/-- R37: nothing follows the end of the stream. -/
theorem supply_of_ended {s : State} (vs : List Int) (h : s.streamEnded = true) : s.supply vs = s :=
  if_pos h

/-- The first value that arrives where a request found none is what the request finds. -/
theorem appendInput_inNext_of_pending {s : State} {v : Int} (vs : List Int) (hn : s.inNext = .pending)
    (hpos : s.inPos ≤ s.stream.length) : (s.appendInput (v :: vs)).inNext = .value v := by
  obtain ⟨hnone, -⟩ := State.inNext_eq_pending.1 hn
  have hall : s.inPos = s.stream.length := le_antisymm hpos (List.getElem?_eq_none_iff.1 hnone)
  rw [State.inNext_eq_value]
  simp [State.appendInput, hall]

/-- A step that runs a READ for which a Word has arrived. -/
theorem step_read_of_word {s : State} {w a v : Int} (hp : s.phase = .run .running) (hw : s.memRead s.ic = some w)
    (hd : decode w = .instr (.read a)) (hn : s.inNext = .value v) (hv : inWordRange v) :
    step s = .next (((s.latch w).inTake.setMem (s.mem.set a.toNat v)).emit (.echo v)).advance := by
  have hfree : s.heldBy (.read a) = false := by
    rw [Bool.eq_false_iff, ne_eq, heldBy_read_iff, hn]
    nofun
  rw [step_of_fetched hp hw, runWord_of_not_held hd hfree]
  exact execRead_of_word (addrValid_iff.2 (operand_bounds_of_decode hd)) ((s.inNext_latch w).trans hn) hv

/-- Settles O11: a READ can wait only while the stream has not ended, and then the value that arrives is the next one. -/
theorem anArrivingValueWakesTheRead : Obligations.AnArrivingValueWakesTheRead := by
  intro s w a v hp hw hd hn hpos hlow hhigh
  obtain ⟨-, hopen⟩ := State.inNext_eq_pending.1 hn
  rw [supply_of_not_ended [v] hopen]
  refine ⟨_, step_read_of_word (s := s.appendInput [v]) hp hw hd (appendInput_inNext_of_pending [] hn hpos)
    (inWordRange_iff.2 ⟨hlow, hhigh⟩), ?_, rfl, rfl, rfl⟩
  have ha : addrValid a := addrValid_iff.2 (operand_bounds_of_decode hd)
  exact (State.memRead_setMem_set s v a ha).trans (if_pos rfl)

theorem State.Inv.appendInput {s : State} (h : s.Inv) (vs : List Int) : (s.appendInput vs).Inv := by
  obtain ⟨hpos, hcount⟩ := h.counts
  have hlonger : s.stream.length ≤ (s.stream ++ vs).length := by simp
  exact { h with counts := ⟨hpos.trans hlonger, hcount⟩ }

theorem State.Inv.endInput {s : State} (h : s.Inv) : s.endInput.Inv := { h with }

/-- Settles O46: of the invariant's clauses only the bound on the stream position speaks of the stream, and the stream only
grows. -/
theorem hostInputKeepsTheInvariant : Obligations.HostInputKeepsTheInvariant := by
  intro s vs h
  refine ⟨?_, h.endInput⟩
  cases hend : s.streamEnded with
  | true => exact (supply_of_ended vs hend).symm ▸ h
  | false => exact (supply_of_not_ended vs hend).symm ▸ h.appendInput vs

end Sys2Proof.Machine
end

section
/-!
PROOFS of the family 70_reset_and_hazards.md, one step of the loader and the start. The loader's answer, said once for
each outcome of R234, and what every step keeps until execution starts.
-/

namespace Sys2Proof.Machine

/-- R234: a Word `v` stored behind those the loader has stored, and counted. -/
def State.loadWord (s : State) (v : Int) : State := (s.inTake.setMem (s.mem.set s.loadCount v)).countLoaded

theorem loadStep_of_value {s : State} {v : Int} (hn : s.inNext = .value v) : loadStep s = loadValue s v := by
  simp only [loadStep, hn]

theorem loadStep_of_pending {s : State} (hn : s.inNext = .pending) : loadStep s = .next s := by
  simp only [loadStep, hn]

theorem loadStep_of_endOfStream {s : State} (hn : s.inNext = .endOfStream) :
    loadStep s = .next (s.loadAtEnd Config.loadEofPolicy Config.loadEofReport) := by
  simp only [loadStep, hn]

/-- The terminator is no Word (00_scope.md R6), so no Word ends the load. -/
theorem ne_loadTerminator_of_word {v : Int} (hv : inWordRange v) : v ≠ Config.loadTerminator := by
  rintro rfl
  cases hv

theorem loadValue_terminator (s : State) : loadValue s Config.loadTerminator = .next s.inTake.loadOk := if_pos rfl

theorem loadValue_of_nonWord {s : State} {v : Int} (ht : v ≠ Config.loadTerminator) (hv : ¬ inWordRange v) :
    loadValue s v = .next ((s.inTake.loadFail .invalidWord).emit (.abend .invalidWord)) := by
  rw [loadValue, if_neg ht, if_neg hv]

theorem loadValue_of_full {s : State} {v : Int} (hv : inWordRange v) (hc : s.loadCount = 100) :
    loadValue s v = .next ((s.inTake.loadFail .programTooLarge).emit (.abend .programTooLarge)) := by
  have hfull : s.loadCount = Config.loadCapacity := hc
  rw [loadValue, if_neg (ne_loadTerminator_of_word hv), if_pos hv, if_pos hfull]

theorem loadValue_of_word {s : State} {v : Int} (hv : inWordRange v) (hc : s.loadCount < 100) :
    loadValue s v = .next (s.loadWord v) := by
  have ha : addrValid s.loadCount := addrValid_iff.2 (by omega)
  have hroom : s.loadCount ≠ Config.loadCapacity := hc.ne
  rw [loadValue, if_neg (ne_loadTerminator_of_word hv), if_pos hv, if_neg hroom, State.memWrite, if_pos ha]
  rfl

/-- R235: a failed load has no run. -/
theorem step_of_loadFailed {s : State} {r : LoadFailure} (hp : s.phase = .loadFailed r) : step s = .fault .noRun := by
  simp only [step, hp]

/-- Settles O48. -/
theorem waitingLoaderChangesNothing : Obligations.WaitingLoaderChangesNothing := by
  intro s hp hn
  rw [step_of_loading hp, loadStep_of_pending hn]

/-- Settles O52. -/
theorem aFailedLoadHasNoRun : Obligations.AFailedLoadHasNoRun := by
  intro s r hp t h
  cases (step_of_loadFailed hp).symm.trans h

/-- Settles O53. -/
theorem executionStartsAtAddressZero : Obligations.ExecutionStartsAtAddressZero := by
  intro s hp
  rw [step_of_loaded hp]
  rfl

/-- Settles O47, one equation of `loadValue` for each clause. -/
theorem theLoaderTakesAValue : Obligations.TheLoaderTakesAValue := by
  intro s v hp hin
  rw [step_of_loading hp, loadStep_of_value (State.inNext_eq_value.2 hin)]
  refine ⟨?terminator, ?nonWord, ?full, ?word⟩
  case terminator =>
    rintro rfl
    exact loadValue_terminator s
  case nonWord =>
    intro ht hv
    exact loadValue_of_nonWord ht (by rw [inWordRange_iff]; omega)
  case full =>
    intro hlow hhigh hc
    exact loadValue_of_full (inWordRange_iff.2 ⟨hlow, hhigh⟩) hc
  case word =>
    intro hlow hhigh hc
    refine ⟨_, loadValue_of_word (inWordRange_iff.2 ⟨hlow, hhigh⟩) hc, fun b => ?_, rfl⟩
    exact State.memRead_setMem_set s (a := s.loadCount) v b (addrValid_iff.2 (by omega))

/-- Settles O49, by the cases of the policy and, under `reject`, of the report. -/
theorem theLoaderAtEndOfStream : Obligations.TheLoaderAtEndOfStream := by
  intro s hp hn
  refine ⟨_, (step_of_loading hp).trans (loadStep_of_endOfStream hn), ?_⟩
  rcases s.loadAtEnd_cases Config.loadEofPolicy Config.loadEofReport with
    ⟨hpol, ht⟩ | ⟨hpol, ⟨-, ht⟩ | ⟨k, -, ht⟩⟩ <;> rw [ht]
  · exact .inl ⟨hpol, rfl⟩
  · exact .inr ⟨hpol, rfl, aFailedLoadHasNoRun _ .endOfStream rfl⟩
  · exact .inr ⟨hpol, rfl, aFailedLoadHasNoRun _ .endOfStream rfl⟩

/-! ### What every step keeps until execution starts -/

theorem unstartedIsFresh_of_run {s : State} {st : RunState} (hp : s.phase = .run st) : s.unstartedIsFresh := by
  simp [State.unstartedIsFresh, hp]

theorem unstartedIsFresh_iff_of_not_run {s : State} (hp : ∀ st, s.phase ≠ .run st) :
    s.unstartedIsFresh ↔ s.fresh := by
  unfold State.unstartedIsFresh
  split
  · next st hst => exact absurd hst (hp st)
  all_goals exact Iff.rfl

/-- The loader writes no register, and of the memory only the slot at its count, which it then passes. -/
theorem LoadEffect.keeps_fresh {s t : State} (h : LoadEffect s t) (hs : s.fresh) : t.fresh := by
  cases h with
  | ends | fails | acceptsEnd | rejectsEnd | reportsEnd => exact hs
  | @stores v =>
    obtain ⟨hacc, hic, hir, hopc, hopd, hmem⟩ := hs
    refine ⟨hacc, hic, hir, hopc, hopd, fun a (ha : s.loadCount + 1 ≤ a) => ?_⟩
    calc (s.mem.set s.loadCount v).get a
      _ = s.mem.get a := Memory.get_set_of_ne _ v (by omega)
      _ = Config.fillWord := hmem a (by omega)

theorem ExecEffect.phase_run {i : Instr} {s t : State} (h : ExecEffect i s t) (hp : s.phase = .run .running) :
    ∃ st, t.phase = .run st := by
  rcases h.phase_cases with hsame | ⟨-, hhalt⟩ | ⟨k, -, habend, -⟩
  · exact ⟨_, hsame.trans hp⟩
  · exact ⟨_, hhalt⟩
  · exact ⟨_, habend⟩

/-- Settles O44: of the steps only the loader's lead to a state in which execution has not started. -/
theorem theLoadLeavesTheRestFresh : Obligations.TheLoadLeavesTheRestFresh := by
  intro s t hs h
  cases step_effect h with
  | waits => exact hs
  | loads hp hl =>
    have hfresh : s.fresh := (unstartedIsFresh_iff_of_not_run (by simp [hp])).1 hs
    exact (unstartedIsFresh_iff_of_not_run (hl.not_run hp)).2 (hl.keeps_fresh hfresh)
  | starts => exact unstartedIsFresh_of_run s.start_phase
  | failsPcCheck => exact unstartedIsFresh_of_run (s.raiseAbend_phase _)
  | meetsInvalidWord => exact unstartedIsFresh_of_run (State.raiseAbend_phase _ _)
  | executes hp _ _ hx =>
    obtain ⟨st, hst⟩ := hx.phase_run hp
    exact unstartedIsFresh_of_run hst

end Sys2Proof.Machine
end

section
/-!
PROOFS of the family 70_reset_and_hazards.md, a whole load. The loader after it has stored the Words `ws` of its stream
(`HasLoaded`), one more Word as a step from there, and the induction over the Words still to come.
-/

namespace Sys2Proof.Machine

/-- The loader has stored the Words `ws`, the first of its stream, and nothing else has happened since construction. -/
structure State.HasLoaded (stream ws : List Int) (s : State) : Prop where
  phase : s.phase = .loading
  stream : s.stream = stream
  inPos : s.inPos = ws.length
  loadCount : s.loadCount = ws.length
  out : s.out = []
  mem : ∀ a, s.mem.get a = ws.getD a Config.fillWord

theorem hasLoaded_nil_of_reset (stream : List Int) : (State.reset.supply stream).HasLoaded stream [] := by
  rw [supply_of_not_ended stream rfl]
  exact ⟨rfl, rfl, rfl, rfl, rfl, fun _ => rfl⟩

/-- What a load stores, an address at a time, when one more Word comes. -/
theorem getD_append_singleton (ws : List Int) (v d : Int) (a : Nat) :
    (ws ++ [v]).getD a d = if a = ws.length then v else ws.getD a d := by
  rcases lt_trichotomy a ws.length with hlt | rfl | hgt
  · rw [List.getD_append _ _ _ _ hlt, if_neg hlt.ne]
  · simp
  · rw [List.getD_eq_default _ _ (by simpa using hgt), List.getD_eq_default _ _ hgt.le, if_neg hgt.ne']

section
variable {s : State} {stream ws : List Int} {v : Int}

/-- The loader's next request finds the value behind those it has stored. -/
theorem State.HasLoaded.inNext {rest : List Int} (h : s.HasLoaded (ws ++ v :: rest) ws) : s.inNext = .value v := by
  rw [State.inNext_eq_value, h.stream, h.inPos]
  simp

theorem State.HasLoaded.step_eq {rest : List Int} (h : s.HasLoaded (ws ++ v :: rest) ws) : step s = loadValue s v :=
  (step_of_loading h.phase).trans (loadStep_of_value h.inNext)

theorem State.HasLoaded.loadWord (h : s.HasLoaded stream ws) (v : Int) :
    (s.loadWord v).HasLoaded stream (ws ++ [v]) where
  phase := h.phase
  stream := h.stream
  inPos := by simp [State.loadWord, h.inPos]
  loadCount := by simp [State.loadWord, h.loadCount]
  out := h.out
  mem a := by
    rw [getD_append_singleton, ← h.loadCount, ← h.mem]
    exact Memory.get_set s.mem s.loadCount a v

theorem State.HasLoaded.memRead (h : s.HasLoaded stream ws) {a : Nat} (ha : a < 100) :
    s.memRead a = some (ws.getD a 7777) := by
  rw [State.memRead_of_valid s (addrValid_iff.2 (by omega))]
  exact congrArg some (h.mem a)

end

/-- The loader stores the Words `todo`, one a step, as long as there is room for them. -/
theorem State.HasLoaded.run_words {todo rest : List Int} (k : Nat) (hw : ∀ v ∈ todo, inWordRange v) :
    ∀ {done : List Int} {s : State}, s.HasLoaded (done ++ todo ++ rest) done → (done ++ todo).length ≤ 100 →
      ∃ t : State, Sys2Proof.core.run (todo.length + k) s = Sys2Proof.core.run k t ∧
        t.HasLoaded (done ++ todo ++ rest) (done ++ todo) := by
  induction todo with
  | nil =>
    intro done s h _
    rw [List.append_nil] at h ⊢
    exact ⟨s, by rw [List.length_nil, Nat.zero_add], h⟩
  | cons v todo ih =>
    intro done s h hroom
    have hsplit : done ++ v :: todo = done ++ [v] ++ todo := by simp
    have hcount : s.loadCount < 100 := by
      rw [h.loadCount]
      rw [List.length_append, List.length_cons] at hroom
      omega
    have hstep : step s = .next (s.loadWord v) := by
      have hnext : s.HasLoaded (done ++ v :: (todo ++ rest)) done := by simpa using h
      rw [hnext.step_eq, loadValue_of_word (hw v List.mem_cons_self) hcount]
    rw [hsplit] at h hroom ⊢
    obtain ⟨t, hrun, ht⟩ := ih (fun u hu => hw u (List.mem_cons_of_mem v hu)) (h.loadWord v) hroom
    refine ⟨t, ?_, ht⟩
    rw [List.length_cons, Nat.add_right_comm, core_run_succ _ hstep, hrun]

/-- From construction, at most 100 Words and one value more: the Words are stored, and the loader takes that value. -/
theorem run_load_from_reset {ws rest : List Int} {v : Int} (hw : ∀ u ∈ ws, inWordRange u) (hroom : ws.length ≤ 100) :
    ∃ s : State, s.HasLoaded (ws ++ v :: rest) ws ∧
      ∀ t, loadValue s v = .next t →
        Sys2Proof.core.run (ws.length + 1) (State.reset.supply (ws ++ v :: rest)) = .next t := by
  obtain ⟨s, hrun, hs⟩ :=
    State.HasLoaded.run_words (done := []) (rest := v :: rest) 1 hw (hasLoaded_nil_of_reset _) hroom
  refine ⟨s, hs, fun t ht => ?_⟩
  have hstep : step s = .next t := (State.HasLoaded.step_eq hs).trans ht
  exact hrun.trans (core_run_succ 0 hstep)

/-- Settles O50: once the Words are stored, the terminator ends the load and leaves the memory. -/
theorem theTerminatorEndsTheLoad : Obligations.TheTerminatorEndsTheLoad := by
  intro ts rest hwords hroom
  obtain ⟨s, hs, hrun⟩ := run_load_from_reset (v := -99999) (rest := rest)
    (fun u hu => inWordRange_iff.2 (hwords u hu)) hroom
  refine ⟨_, hrun _ (loadValue_terminator s), rfl, hs.loadCount, ?_, hs.out, fun a ha => hs.memRead ha⟩
  exact congrArg (· + 1) hs.inPos

/-- Settles O51: after the first 100 Words the memory is full, and the last one fails the load and leaves the memory. -/
theorem theHundredFirstWordFailsTheLoad : Obligations.TheHundredFirstWordFailsTheLoad := by
  intro ts rest hwords hlen
  obtain ⟨ws, v, rfl⟩ := List.eq_nil_or_concat' ts |>.resolve_left (by rintro rfl; cases hlen)
  have hfull : ws.length = 100 := by simpa using hlen
  have hword : ∀ u ∈ ws ++ [v], inWordRange u := fun u hu => inWordRange_iff.2 (hwords u hu)
  obtain ⟨s, hs, hrun⟩ := run_load_from_reset (v := v) (rest := rest)
    (fun u hu => hword u (List.mem_append_left _ hu)) hfull.le
  have hlast : loadValue s v = .next ((s.inTake.loadFail .programTooLarge).emit (.abend .programTooLarge)) :=
    loadValue_of_full (hword v (by simp)) (hs.loadCount.trans hfull)
  rw [List.append_assoc, List.singleton_append]
  refine ⟨_, hfull ▸ hrun _ hlast, rfl, congrArg (· ++ _) hs.out, fun a ha => ?_⟩
  have hlt : a < ws.length := hfull ▸ ha
  calc s.memRead a
    _ = some (ws.getD a 7777) := hs.memRead ha
    _ = ws[a]? := by rw [List.getD_eq_getElem _ _ hlt, List.getElem?_eq_getElem hlt]
    _ = (ws ++ [v])[a]? := (List.getElem?_append_left hlt).symm

end Sys2Proof.Machine
end
